-- ==== Sys2Proof/Word.lean ====
section
/-! DEFINITION. The bit patterns of the hardware: a W-bit pattern and a 4-bit register index
(00_scope.md R12, 10_state.md R20). -/

namespace Sys2Proof

/-- A pattern of `w` bits, bit 0 the least significant (00_scope.md R12). -/
abbrev Pattern (w : Nat) := BitVec w

/-- A register index, 0 to 15 (10_state.md R20). -/
abbrev Index := BitVec 4

end Sys2Proof
end

