-- ==== Sys2Proof/Config.lean ====
section
/-! DEFINITION. What one build of the hardware fixes (00_scope.md R6, R7, R10, R11), and the free
values: the constants without a body that stand for what the spec leaves unspecified. -/

namespace Sys2Proof

/-- The build parameters. They are arguments of the model (00_scope.md R6, R7, R11): every state
carries its build and no event changes it (log 1). `base`, `stride` and `cycStep` belong to the
platform and to timing; no rule of the machine reads them (log 2). -/
structure Build where
  /-- `W`, the operand width in bits (R6) -/
  width : Nat
  /-- `SIGNED`: operands are read as two's complement (R7) -/
  signed : Bool
  /-- `BASE`: the address of register index 0 in the platform's map (R11, R54) -/
  base : Nat := 0
  /-- the platform's stride between two register indices (R54) -/
  stride : Nat := 4
  /-- `CYC_STEP`: clock cycles an engine step takes (R11, R206) -/
  cycStep : Nat := 1
  two_le_width : 2 ≤ width := by decide
  width_le : width ≤ 65535 := by decide
  cycStep_pos : 0 < cycStep := by decide
deriving DecidableEq, Repr

/-- `BW = max(W, 32)`, the width of the host data bus (00_scope.md R10). -/
def Build.bw (b : Build) : Nat := max b.width 32

/-- The build of `State.reset`: W = 32, unsigned. DESIGN CHOICE (log 1, log 2): the spec leaves the
parameters OPEN. Unsafe for a statement about this build alone, so the statements range over builds. -/
def Build.reference : Build := { width := 32, signed := false }

/-- The free values of a reset event: the working registers after it (10_state.md R38, U1 of
93_implementation_defined.md) and the answer to a read in the same cycle (70_reset_and_hazards.md R192,
U2). `freeWord w k` is the `k`-th free value, `w` bits wide (log 7). -/
opaque Config.freeWord (w : Nat) (k : Nat) : BitVec w

/-- The remainder by a modulus of 0. Division by zero cannot occur in a run (42_engine.md R147), so only
a state that no run reaches shows it (log 15). -/
opaque Config.remainderByZero (x : Nat) : Nat

end Sys2Proof
end

