-- ==== Sys2Proof/Syntax.lean ====
section
/-! DEFINITION. Host transactions (30_encoding.md R70) and the instructions they spell
(30_encoding.md R75). -/

namespace Sys2Proof

/-- A host transaction on a bus of `bw` data bits: `we`, `addr` and, for a write only, `data`
(30_encoding.md R70). The response `rdata` of a read is no part of it. -/
inductive Txn (bw : Nat) where
  /-- `we = 0` -/
  | read (addr : Index)
  /-- `we = 1` -/
  | write (addr : Index) (data : BitVec bw)
deriving DecidableEq, Repr

/-- The instructions of spec/opcode_table.json, one constructor each. CMD.RSVD spans three rows and
is one instruction (30_encoding.md R75, log 13). `data` is the whole BW-bit data of the write; a
command's `high` is `data[BW-1:4]`, which the hardware ignores (R74) and the term keeps, so that no bit
of a transaction is lost (log 14). -/
inductive Instr where
  | rd (addr : Index)
  | wrId (data : Nat)
  | cmdNop (high : Nat)
  | cmdPowmod (high : Nat)
  | cmdClear (high : Nat)
  | cmdRsvd (opcode : BitVec 4) (high : Nat)
  | wrStatus (data : Nat)
  | wrIe (data : Nat)
  | wrOpa (data : Nat)
  | wrOpb (data : Nat)
  | wrOpn (data : Nat)
  | wrResult (data : Nat)
  | wrRsvd (addr : Index) (data : Nat)
deriving DecidableEq, Repr

/-- The mnemonics of spec/opcode_table.json. -/
inductive Mnemonic where
  | rd | wrId | cmdNop | cmdPowmod | cmdClear | cmdRsvd | wrStatus | wrIe | wrOpa | wrOpb | wrOpn
  | wrResult | wrRsvd
deriving DecidableEq, Repr

/-- The mnemonic of an instruction. -/
def Instr.mnemonic : Instr → Mnemonic
  | .rd _ => .rd
  | .wrId _ => .wrId
  | .cmdNop _ => .cmdNop
  | .cmdPowmod _ => .cmdPowmod
  | .cmdClear _ => .cmdClear
  | .cmdRsvd _ _ => .cmdRsvd
  | .wrStatus _ => .wrStatus
  | .wrIe _ => .wrIe
  | .wrOpa _ => .wrOpa
  | .wrOpb _ => .wrOpb
  | .wrOpn _ => .wrOpn
  | .wrResult _ => .wrResult
  | .wrRsvd _ _ => .wrRsvd

end Sys2Proof
end

