-- ==== Sys2Proof/WellFormed.lean ====
section
/-! DEFINITION. Which instructions a host port of `bw` data bits can carry. -/

namespace Sys2Proof

/-- The data of a write has BW bits (30_encoding.md R70). -/
def fitsBus (bw data : Nat) : Bool := decide (data < 2 ^ bw)

/-- The ignored part `data[BW-1:4]` of a command has BW - 4 bits (30_encoding.md R74). -/
def fitsHigh (bw high : Nat) : Bool := decide (high < 2 ^ (bw - 4))

/-- CMD.RSVD carries an opcode 0x3 to 0xF (30_encoding.md R73). -/
def reservedOpcode (opcode : BitVec 4) : Bool := decide (3 ≤ opcode.toNat)

/-- WR.RSVD names an index 0x8 to 0xF (30_encoding.md R75). -/
def reservedIndex (addr : Index) : Bool := decide (8 ≤ addr.toNat)

/-- The instruction is one that a transaction of a bus of `bw` bits spells. -/
def Instr.wellFormed (bw : Nat) : Instr → Bool
  | .rd _ => true
  | .wrId data => fitsBus bw data
  | .cmdNop high => fitsHigh bw high
  | .cmdPowmod high => fitsHigh bw high
  | .cmdClear high => fitsHigh bw high
  | .cmdRsvd opcode high => reservedOpcode opcode && fitsHigh bw high
  | .wrStatus data => fitsBus bw data
  | .wrIe data => fitsBus bw data
  | .wrOpa data => fitsBus bw data
  | .wrOpb data => fitsBus bw data
  | .wrOpn data => fitsBus bw data
  | .wrResult data => fitsBus bw data
  | .wrRsvd addr data => reservedIndex addr && fitsBus bw data

end Sys2Proof
end

