-- ==== Sys2Proof/Decode.lean ====
section
/-! DEFINITION. Decoding a host transaction, encoding an instruction, and the opcode map of
30_encoding.md R75. The decoder is total and refuses nothing: every transaction spells exactly one
instruction (30_encoding.md R77, log 12). -/

namespace Sys2Proof

/-! ## The decode key and the opcode map -/

/-- The decode key `K = {we, addr, we ? data[3:0] : 0}` (30_encoding.md R72). -/
def Txn.key {bw : Nat} : Txn bw → BitVec 9
  | .read addr => (0#1 ++ addr ++ 0#4 : BitVec (1 + 4 + 4))
  | .write addr data => (1#1 ++ addr ++ data.setWidth 4 : BitVec (1 + 4 + 4))

/-- One row of spec/opcode_table.json. -/
structure OpcodeRow where
  mnemonic : Mnemonic
  pattern : BitVec 9
  mask : BitVec 9
deriving DecidableEq, Repr

/-- The 15 rows of the opcode map, in the table's order (30_encoding.md R75). -/
def opcodeMap : List OpcodeRow :=
  [⟨.rd, 0x000, 0x100⟩, ⟨.wrId, 0x100, 0x1F0⟩, ⟨.cmdNop, 0x110, 0x1FF⟩, ⟨.cmdPowmod, 0x111, 0x1FF⟩,
   ⟨.cmdClear, 0x112, 0x1FF⟩, ⟨.cmdRsvd, 0x113, 0x1FF⟩, ⟨.cmdRsvd, 0x114, 0x1FC⟩,
   ⟨.cmdRsvd, 0x118, 0x1F8⟩, ⟨.wrStatus, 0x120, 0x1F0⟩, ⟨.wrIe, 0x130, 0x1F0⟩,
   ⟨.wrOpa, 0x140, 0x1F0⟩, ⟨.wrOpb, 0x150, 0x1F0⟩, ⟨.wrOpn, 0x160, 0x1F0⟩,
   ⟨.wrResult, 0x170, 0x1F0⟩, ⟨.wrRsvd, 0x180, 0x180⟩]

/-- A row matches when `K & mask = match` (30_encoding.md R72). -/
def OpcodeRow.accepts (row : OpcodeRow) (key : BitVec 9) : Bool := key &&& row.mask == row.pattern

/-! ## The decoder -/

/-- The command a write of `data` to CMD issues: its opcode is `data[3:0]` (30_encoding.md R73). -/
def decodeCommand (data : Nat) : Instr :=
  match data % 16 with
  | 0 => .cmdNop (data / 16)
  | 1 => .cmdPowmod (data / 16)
  | 2 => .cmdClear (data / 16)
  | _ => .cmdRsvd (BitVec.ofNat 4 data) (data / 16)

/-- The instruction a write of `data` to index `addr` spells (30_encoding.md R75). -/
def decodeWrite (addr : Index) (data : Nat) : Instr :=
  match addr.toNat with
  | 0 => .wrId data
  | 1 => decodeCommand data
  | 2 => .wrStatus data
  | 3 => .wrIe data
  | 4 => .wrOpa data
  | 5 => .wrOpb data
  | 6 => .wrOpn data
  | 7 => .wrResult data
  | _ => .wrRsvd addr data

/-- The instruction a host transaction spells. -/
def decode {bw : Nat} : Txn bw → Instr
  | .read addr => .rd addr
  | .write addr data => decodeWrite addr data.toNat

/-! ## The encoder -/

/-- A write of a command: the opcode in `data[3:0]` (30_encoding.md R73). -/
def encodeCommand (bw opcode high : Nat) : Txn bw := .write 0x1 (BitVec.ofNat bw (16 * high + opcode))

/-- The transaction that spells an instruction, on a bus of `bw` data bits. -/
def encode (bw : Nat) : Instr → Txn bw
  | .rd addr => .read addr
  | .wrId data => .write 0x0 (BitVec.ofNat bw data)
  | .cmdNop high => encodeCommand bw 0 high
  | .cmdPowmod high => encodeCommand bw 1 high
  | .cmdClear high => encodeCommand bw 2 high
  | .cmdRsvd opcode high => encodeCommand bw opcode.toNat high
  | .wrStatus data => .write 0x2 (BitVec.ofNat bw data)
  | .wrIe data => .write 0x3 (BitVec.ofNat bw data)
  | .wrOpa data => .write 0x4 (BitVec.ofNat bw data)
  | .wrOpb data => .write 0x5 (BitVec.ofNat bw data)
  | .wrOpn data => .write 0x6 (BitVec.ofNat bw data)
  | .wrResult data => .write 0x7 (BitVec.ofNat bw data)
  | .wrRsvd addr data => .write addr (BitVec.ofNat bw data)

/-! ## A transaction as one number

The opcode table numbers the 9 bits of K. The rest of a write's data is counted on above them:
the number is `{data[BW-1:4], K[8:0]}` (DESIGN CHOICE, log 10). -/

/-- The number that a transaction's bits spell. -/
def Txn.toWord {bw : Nat} : Txn bw → Nat
  | .read addr => 16 * addr.toNat
  | .write addr data => 512 * (data.toNat / 16) + 256 + 16 * addr.toNat + data.toNat % 16

/-- The transaction whose bits a number spells. A read has no data: its low nibble is not decoded
(30_encoding.md R72, R75, log 11). -/
def Txn.ofWord (bw : Nat) (w : Nat) : Txn bw :=
  if w.testBit 8 then .write (BitVec.ofNat 4 (w / 16)) (BitVec.ofNat bw (16 * (w / 512) + w % 16))
  else .read (BitVec.ofNat 4 (w / 16))

/-- The instruction of the table word `w`, on the 32-bit bus of the reference build (log 12). -/
def decodeTableWord (nbits w : Nat) : Option Instr :=
  some (decode (Txn.ofWord Build.reference.bw (w % 2 ^ nbits)))

end Sys2Proof
end

