-- ==== Sys2Proof/Machine/State.lean ====
section
/-! DEFINITION. The state of the machine (10_state.md R37, R38), the events that drive it
(20_memory.md R58), and the reasons a step can stop. -/

namespace Sys2Proof.Machine

/-- Whether a run is in progress (10_state.md R28). -/
inductive Phase where
  | idle
  | run
deriving DecidableEq, Repr

/-- The errors the engine reports (60_exceptions.md R160). -/
inductive ErrorKind where
  | overflow
  | domainModulus
  | domainExponent
  | illegalCmd
  | busy
deriving DecidableEq, Repr

/-- The state record of 10_state.md R37, for operand width `w`. ID, CMD, STATUS.BUSY, STATUS.IRQ and the
reserved indices have no storage of their own. -/
structure Engine (w : Nat) where
  /-- IE[0] (R27) -/
  ie : Bool
  /-- OPA, the base pattern (R32) -/
  opa : BitVec w
  /-- OPB, the exponent pattern (R32) -/
  opb : BitVec w
  /-- OPN, the modulus pattern (R32) -/
  opn : BitVec w
  /-- RESULT (R33) -/
  result : BitVec w
  /-- STATUS.DONE (R25) -/
  done : Bool
  /-- STATUS.ERR (R26) -/
  err : Bool
  /-- STATUS.ERRCODE (R26, 60_exceptions.md R160) -/
  errcode : BitVec 4
  /-- the phase (R28) -/
  phase : Phase
  /-- w.base, the current power of the base (R29) -/
  wbase : BitVec w
  /-- w.exp, the exponent bits not yet processed (R29) -/
  wexp : BitVec w
  /-- w.mod, the modulus of the run (R29) -/
  wmod : BitVec w
  /-- w.acc, the accumulator (R29) -/
  wacc : BitVec w
deriving DecidableEq, Repr

/-- What can happen next (00_scope.md R16, 20_memory.md R58), on a bus of `bw` data bits. -/
inductive Event (bw : Nat) where
  /-- the host presents a transaction -/
  | host (t : Txn bw)
  /-- the engine agent gets its turn; it has a step only while `phase = RUN` (42_engine.md R140, log 5) -/
  | engine
  /-- the platform asserts reset, in the same cycle as the transaction presented, if there is one
  (70_reset_and_hazards.md R190, R192) -/
  | reset (presented : Option (Txn bw))
  /-- the platform splits one register access into narrower ones (20_memory.md R51) -/
  | splitAccess
  /-- the platform stops the clock or removes power (60_exceptions.md R180) -/
  | powerRemoved
deriving DecidableEq, Repr

/-- The machine: one engine instance with its build, and the model's own fields `events`, `responses`
and `fresh`. -/
structure State where
  /-- the build parameters; no event changes them (log 1) -/
  build : Build
  /-- the architectural state (10_state.md R37) -/
  engine : Engine build.width
  /-- the events still to come, first one first: the interleaving of 20_memory.md R58 as data (log 3) -/
  events : List (Event build.bw)
  /-- the `rdata` of the reads answered so far, newest first (30_encoding.md R70, log 8) -/
  responses : List (BitVec build.bw)
  /-- the number of free values taken so far (log 7) -/
  fresh : Nat
deriving DecidableEq, Repr

/-- There is no fault: the engine has no trap and no access fault (60_exceptions.md R172,
20_memory.md R56), and an error is a record in STATUS (R161). No constructor (log 17, safe). -/
inductive Fault where
deriving DecidableEq, Repr

/-- Why the machine has no next state. -/
inductive Refusal where
  /-- raised by an arm of `exec` whose instruction has no meaning yet; safe: nothing follows from it -/
  | notModelled (mnemonic : String)
  /-- raised by `step` at an event `splitAccess`: "such an access is refused, because the model has no
  meaning for it" (20_memory.md R51, U9); safe: nothing follows from it (log 16) -/
  | splitAccess
  /-- raised by `step` at an event `powerRemoved`: "the model assumes nothing of it" (60_exceptions.md
  R180, U13); safe: nothing follows from it (log 16) -/
  | powerRemoved
deriving DecidableEq, Repr

/-- The engine after reset: every piece of state at the value of 10_state.md R38, with the working
registers, which R38 leaves unspecified, at given values. -/
def Engine.afterReset {w : Nat} (wbase wexp wmod wacc : BitVec w) : Engine w where
  ie := false
  opa := 0
  opb := 0
  opn := 0
  result := 0
  done := false
  err := false
  errcode := 0
  phase := .idle
  wbase := wbase
  wexp := wexp
  wmod := wmod
  wacc := wacc

/-- A build right after reset. The working registers are 0 (DESIGN CHOICE, log 6, unsafe); nothing
is pending and nothing has been answered (log 3, log 7, log 8). -/
def State.resetOf (b : Build) : State where
  build := b
  engine := Engine.afterReset 0 0 0 0
  events := []
  responses := []
  fresh := 0

/-- The machine right after reset, in the reference build (log 1). -/
def State.reset : State := State.resetOf Build.reference

end Sys2Proof.Machine
end

