-- ==== Sys2Proof/Machine/Flags.lean ====
section
/-! DEFINITION. STATUS, its fields and the interrupt level (10_state.md R23 to R27,
60_exceptions.md R160, R170). -/

namespace Sys2Proof.Machine

/-- The codes of STATUS.ERRCODE (60_exceptions.md R160); 0 is no error. -/
def errorCode : ErrorKind → BitVec 4
  | .overflow => 1
  | .domainModulus => 2
  | .domainExponent => 3
  | .illegalCmd => 4
  | .busy => 5

/-- STATUS.BUSY: 1 exactly when `phase = RUN` (10_state.md R24). -/
def busy {w : Nat} (e : Engine w) : Bool :=
  match e.phase with
  | .run => true
  | .idle => false

/-- The interrupt level, `IE[0] & (DONE | ERR)` (60_exceptions.md R170). -/
def irq {w : Nat} (e : Engine w) : Bool := e.ie && (e.done || e.err)

/-- STATUS: `{ERRCODE[3:0], IRQ, ERR, DONE, BUSY}` (10_state.md R23, 40_host_access.md R100). -/
def statusWord {w : Nat} (e : Engine w) : BitVec 8 :=
  (e.errcode ++ BitVec.ofBool (irq e) ++ BitVec.ofBool e.err ++ BitVec.ofBool e.done
    ++ BitVec.ofBool (busy e) : BitVec (4 + 1 + 1 + 1 + 1))

end Sys2Proof.Machine
end

