-- ==== Sys2Proof/Machine/Operands.lean ====
section
/-! DEFINITION. How operands are read and assembled, and the arithmetic of the datapath
(00_scope.md R8, R9, R13, R14; 30_encoding.md R74). -/

namespace Sys2Proof.Machine

/-! ## Integer primitives (00_scope.md R14) -/

/-- The floor-correct remainder: the `r` with `0 ≤ r < m` and `m ∣ x - r`, for `m > 0`. -/
def fmod (x m : Int) : Int := Int.fmod x m

/-- The number of bits of `x`, 0 for 0. -/
def bitlen (x : Nat) : Nat := if x = 0 then 0 else Nat.log2 x + 1

/-- The root whose bits above `k` are `r` already, its lower bits chosen greedily. -/
def isqrtFrom (x : Nat) : Nat → Nat → Nat
  | 0, r => r
  | k + 1, r => isqrtFrom x k (if (r + 2 ^ k) * (r + 2 ^ k) ≤ x then r + 2 ^ k else r)

/-- The floor square root: the largest `s` with `s * s ≤ x`. -/
def isqrt (x : Nat) : Nat := isqrtFrom x (bitlen x) 0

/-! ## Derived constants of a build -/

/-- MAXV, "the representable maximum of the underlying fixed-width type" (00_scope.md R8). -/
def maxv (b : Build) : Nat := if b.signed then 2 ^ (b.width - 1) - 1 else 2 ^ b.width - 1

/-- MINV (00_scope.md R8). -/
def minv (b : Build) : Int := if b.signed then -2 ^ (b.width - 1) else 0

/-- GUARD = isqrt(MAXV) (00_scope.md R9). -/
def guardLimit (b : Build) : Nat := isqrt (maxv b)

/-- NMAX = GUARD + 1, the largest modulus the guard admits (00_scope.md R9). -/
def nmax (b : Build) : Nat := guardLimit b + 1

/-! ## Patterns and integers (00_scope.md R13) -/

/-- The integer a pattern denotes. -/
def val (signed : Bool) {w : Nat} (r : BitVec w) : Int :=
  if signed && r.msb then (r.toNat : Int) - 2 ^ w else r.toNat

/-- The pattern of an integer, `v mod 2^W`. -/
def pat (w : Nat) (v : Int) : BitVec w := BitVec.ofNat w (v % 2 ^ w).toNat

/-! ## Operand assembly (30_encoding.md R74) -/

/-- `data[W-1:0]`, what a write to OPA, OPB or OPN keeps. -/
def keepOperand (w data : Nat) : BitVec w := BitVec.ofNat w data

/-- `data[0]`, what a write to IE keeps. -/
def keepIe (data : Nat) : Bool := data.testBit 0

/-- A register narrower than BW reads zero-extended (00_scope.md R10). -/
def zext (bw : Nat) {w : Nat} (v : BitVec w) : BitVec bw := v.setWidth bw

/-- `x mod w.mod` of the engine steps (42_engine.md R147): the remainder for a modulus `≥ 1`; a modulus
of 0 cannot occur in a run, and its remainder is free (log 15). -/
def reduce (x m : Nat) : Nat := if m = 0 then Config.remainderByZero x else x % m

end Sys2Proof.Machine
end

