-- ==== Sys2Proof/Machine/Ops.lean ====
section
/-! DEFINITION. The operations the instructions share: reading a register index, storing a
register, recording an error (this hardware's taking of an exception, 60_exceptions.md R161, R172) and
clearing the record (its return, R173). -/

namespace Sys2Proof.Machine

/-- The state with another engine record, everything else kept. -/
def State.withEngine (s : State) (e : Engine s.build.width) : State := { s with engine := e }

/-- The state with other events to come. -/
def State.withEvents (s : State) (evs : List (Event s.build.bw)) : State := { s with events := evs }

/-- The host receives the response of a read (30_encoding.md R70). -/
def State.respond (s : State) (rdata : BitVec s.build.bw) : State :=
  { s with responses := rdata :: s.responses }

/-! ## Reading -/

/-- ID: WIDTH [15:0], SGN [16], reserved [23:17], IDVER [31:24] (10_state.md R21). -/
def idWord (b : Build) : BitVec 32 :=
  (0x01#8 ++ 0#7 ++ BitVec.ofBool b.signed ++ BitVec.ofNat 16 b.width : BitVec (8 + 7 + 1 + 16))

/-- The BW-bit value of the register at an index (10_state.md R20, 40_host_access.md R100). -/
def readReg (b : Build) (e : Engine b.width) (addr : Index) : BitVec b.bw :=
  match addr.toNat with
  | 0 => zext b.bw (idWord b)
  | 1 => 0
  | 2 => zext b.bw (statusWord e)
  | 3 => zext b.bw (BitVec.ofBool e.ie)
  | 4 => zext b.bw e.opa
  | 5 => zext b.bw e.opb
  | 6 => zext b.bw e.opn
  | 7 => zext b.bw e.result
  | _ => 0

/-! ## Storing -/

/-- Store IE[0] (40_host_access.md R101). -/
def Engine.setIe {w : Nat} (e : Engine w) (v : Bool) : Engine w := { e with ie := v }

/-- Store OPA (40_host_access.md R102). -/
def Engine.setOpa {w : Nat} (e : Engine w) (v : BitVec w) : Engine w := { e with opa := v }

/-- Store OPB (40_host_access.md R103). -/
def Engine.setOpb {w : Nat} (e : Engine w) (v : BitVec w) : Engine w := { e with opb := v }

/-- Store OPN (40_host_access.md R104). -/
def Engine.setOpn {w : Nat} (e : Engine w) (v : BitVec w) : Engine w := { e with opn := v }

/-! ## The error record -/

/-- `raise E(code)`: `ERR <- 1 ; ERRCODE <- code`, and nothing else changes (60_exceptions.md R161). -/
def Engine.raise {w : Nat} (e : Engine w) (k : ErrorKind) : Engine w :=
  { e with err := true, errcode := errorCode k }

/-- `DONE <- 0 ; ERR <- 0 ; ERRCODE <- 0`: what CMD.CLEAR and the acceptance of CMD.POWMOD clear
(60_exceptions.md R173). -/
def Engine.clearStatus {w : Nat} (e : Engine w) : Engine w :=
  { e with done := false, err := false, errcode := 0 }

/-! ## Starting a run -/

/-- The start of a run with operands `a`, `b`, `n` (41_commands.md R122): the base is reduced
(42_engine.md R148), the accumulator is `fmod(1, n)`, and the phase becomes RUN. -/
def Engine.startRun {w : Nat} (e : Engine w) (a b n : Int) : Engine w :=
  { e with wmod := pat w n, wbase := pat w (fmod a n), wexp := pat w b, wacc := pat w (fmod 1 n),
           phase := .run }

end Sys2Proof.Machine
end

