-- ==== Sys2Proof/Machine/Commands.lean ====
section
/-! DEFINITION. The commands (41_commands.md). The decoder has resolved the opcode before the phase
is looked at, which is the decode order of 41_commands.md R121. -/

namespace Sys2Proof.Machine

/-- An accepted CMD.POWMOD (41_commands.md R122): the previous outcome is cleared, the operands are read
as exact integers, and the first failing check refuses the command; else the run starts. -/
def acceptPowmod (b : Build) (e : Engine b.width) : Engine b.width :=
  let base := val b.signed e.opa
  let exponent := val b.signed e.opb
  let modulus := val b.signed e.opn
  if modulus - 1 > guardLimit b then e.clearStatus.raise .overflow
  else if modulus ≤ 0 then e.clearStatus.raise .domainModulus
  else if exponent < 0 then e.clearStatus.raise .domainExponent
  else e.clearStatus.startRun base exponent modulus

/-- A command that is accepted only while IDLE: written during a run it raises BUSY and nothing else
(41_commands.md R125). -/
def whenIdle {w : Nat} (e accepted : Engine w) : Engine w :=
  match e.phase with
  | .run => e.raise .busy
  | .idle => accepted

/-- CMD.NOP (41_commands.md R120): no state changes, in either phase. -/
def execCmdNop (_high : Nat) (s : State) : Host.Outcome State Fault Refusal := .next s

/-- CMD.POWMOD (41_commands.md R122, R125). -/
def execCmdPowmod (_high : Nat) (s : State) : Host.Outcome State Fault Refusal :=
  .next (s.withEngine (whenIdle s.engine (acceptPowmod s.build s.engine)))

/-- CMD.CLEAR (41_commands.md R124, R125). -/
def execCmdClear (_high : Nat) (s : State) : Host.Outcome State Fault Refusal :=
  .next (s.withEngine (whenIdle s.engine s.engine.clearStatus))

/-- CMD.RSVD (41_commands.md R126): ILLEGAL_CMD in any phase. -/
def execCmdRsvd (_opcode : BitVec 4) (_high : Nat) (s : State) : Host.Outcome State Fault Refusal :=
  .next (s.withEngine (s.engine.raise .illegalCmd))

end Sys2Proof.Machine
end

