-- ==== Sys2Proof/Machine/HostAccess.lean ====
section
/-! DEFINITION. RD and the register writes that are not commands (40_host_access.md). -/

namespace Sys2Proof.Machine

/-- RD (40_host_access.md R100): the host receives the register's value; no state changes. -/
def execRd (addr : Index) (s : State) : Host.Outcome State Fault Refusal :=
  .next (s.respond (readReg s.build s.engine addr))

/-- WR.IE (40_host_access.md R101): `IE[0] <- data[0]`. -/
def execWrIe (data : Nat) (s : State) : Host.Outcome State Fault Refusal :=
  .next (s.withEngine (s.engine.setIe (keepIe data)))

/-- WR.OPA (40_host_access.md R102): `OPA <- data[W-1:0]`. -/
def execWrOpa (data : Nat) (s : State) : Host.Outcome State Fault Refusal :=
  .next (s.withEngine (s.engine.setOpa (keepOperand s.build.width data)))

/-- WR.OPB (40_host_access.md R103): `OPB <- data[W-1:0]`. -/
def execWrOpb (data : Nat) (s : State) : Host.Outcome State Fault Refusal :=
  .next (s.withEngine (s.engine.setOpb (keepOperand s.build.width data)))

/-- WR.OPN (40_host_access.md R104): `OPN <- data[W-1:0]`. -/
def execWrOpn (data : Nat) (s : State) : Host.Outcome State Fault Refusal :=
  .next (s.withEngine (s.engine.setOpn (keepOperand s.build.width data)))

/-- WR.ID (40_host_access.md R105): no state changes. -/
def execWrId (_data : Nat) (s : State) : Host.Outcome State Fault Refusal := .next s

/-- WR.STATUS (40_host_access.md R106): no state changes. -/
def execWrStatus (_data : Nat) (s : State) : Host.Outcome State Fault Refusal := .next s

/-- WR.RESULT (40_host_access.md R107): no state changes. -/
def execWrResult (_data : Nat) (s : State) : Host.Outcome State Fault Refusal := .next s

/-- WR.RSVD (40_host_access.md R108): no state changes, and not ILLEGAL_CMD. -/
def execWrRsvd (_addr : Index) (_data : Nat) (s : State) : Host.Outcome State Fault Refusal := .next s

end Sys2Proof.Machine
end

