-- ==== Sys2Proof/Machine/Dispatch.lean ====
section
/-! DEFINITION. One arm per instruction: the effect of a host transaction, whatever the phase. -/

namespace Sys2Proof.Machine

def exec (i : Instr) (s : State) : Host.Outcome State Fault Refusal :=
  match i with
  | .rd addr => Sys2Proof.Machine.execRd addr s
  | .wrId data => Sys2Proof.Machine.execWrId data s
  | .cmdNop high => Sys2Proof.Machine.execCmdNop high s
  | .cmdPowmod high => Sys2Proof.Machine.execCmdPowmod high s
  | .cmdClear high => Sys2Proof.Machine.execCmdClear high s
  | .cmdRsvd opcode high => Sys2Proof.Machine.execCmdRsvd opcode high s
  | .wrStatus data => Sys2Proof.Machine.execWrStatus data s
  | .wrIe data => Sys2Proof.Machine.execWrIe data s
  | .wrOpa data => Sys2Proof.Machine.execWrOpa data s
  | .wrOpb data => Sys2Proof.Machine.execWrOpb data s
  | .wrOpn data => Sys2Proof.Machine.execWrOpn data s
  | .wrResult data => Sys2Proof.Machine.execWrResult data s
  | .wrRsvd addr data => Sys2Proof.Machine.execWrRsvd addr data s

end Sys2Proof.Machine
end

