-- ==== Sys2Proof/Machine/EngineSteps.lean ====
section
/-! DEFINITION. The steps of the engine agent (42_engine.md R140 to R143). They are no host
instructions and have no encoding. -/

namespace Sys2Proof.Machine

/-- FINISH (42_engine.md R141). -/
def Engine.finish {w : Nat} (e : Engine w) : Engine w :=
  { e with result := e.wacc, done := true, phase := .idle }

/-- `w.base <- (w.base * w.base) mod w.mod` (42_engine.md R142, R143). -/
def squaredBase {w : Nat} (e : Engine w) : BitVec w :=
  BitVec.ofNat w (reduce (e.wbase.toNat * e.wbase.toNat) e.wmod.toNat)

/-- `w.acc <- (w.acc * w.base) mod w.mod` (42_engine.md R142). -/
def multipliedAcc {w : Nat} (e : Engine w) : BitVec w :=
  BitVec.ofNat w (reduce (e.wacc.toNat * e.wbase.toNat) e.wmod.toNat)

/-- MULSQ (42_engine.md R142): both products read the values from before the step. -/
def Engine.mulsq {w : Nat} (e : Engine w) : Engine w :=
  { e with wacc := multipliedAcc e, wbase := squaredBase e, wexp := e.wexp >>> 1 }

/-- SQ (42_engine.md R143). -/
def Engine.sq {w : Nat} (e : Engine w) : Engine w :=
  { e with wbase := squaredBase e, wexp := e.wexp >>> 1 }

/-- The step the engine takes while `phase = RUN`, chosen by w.exp (42_engine.md R140). -/
def runStep {w : Nat} (e : Engine w) : Engine w :=
  if e.wexp.toNat = 0 then e.finish
  else if e.wexp.toNat % 2 = 1 then e.mulsq
  else e.sq

/-- The engine's turn: a step while `phase = RUN`, and no step while IDLE (42_engine.md R140, log 5). -/
def engineTurn {w : Nat} (e : Engine w) : Engine w :=
  match e.phase with
  | .run => runStep e
  | .idle => e

end Sys2Proof.Machine
end

