-- ==== Sys2Proof/Machine/Platform.lean ====
section
/-! DEFINITION. What the platform does to the block: reset (70_reset_and_hazards.md R190 to R192), the
events of one clock cycle (30_encoding.md R71, 60_exceptions.md R168), and the two functions of the
parameters no rule of the machine reads, the address map (20_memory.md R54) and the length of a run in
cycles (70_reset_and_hazards.md R206). -/

namespace Sys2Proof.Machine

/-- The engine after a reset event: R38's values, and free values in the working registers (log 7). -/
def freshlyReset (w fresh : Nat) : Engine w :=
  Engine.afterReset (Config.freeWord w fresh) (Config.freeWord w (fresh + 1))
    (Config.freeWord w (fresh + 2)) (Config.freeWord w (fresh + 3))

/-- A read presented in the cycle of a reset is answered with a free value; a write has no effect and no
response (70_reset_and_hazards.md R192). -/
def resetResponses {bw : Nat} (fresh : Nat) (responses : List (BitVec bw)) :
    Option (Txn bw) → List (BitVec bw)
  | some (.read _) => Config.freeWord bw (fresh + 4) :: responses
  | some (.write _ _) => responses
  | none => responses

/-- Reset (70_reset_and_hazards.md R190, R191, R192): it overrides the transaction presented in its
cycle. The events after it are still to come (log 9). -/
def resetState (s : State) (presented : Option (Txn s.build.bw)) (rest : List (Event s.build.bw)) : State :=
  { s with
    engine := freshlyReset s.build.width s.fresh
    events := rest
    responses := resetResponses s.fresh s.responses presented
    fresh := s.fresh + 5 }

/-- The events of one clock cycle, in order: a transaction comes before an engine step that ends on the
same edge, and a reset overrides both (60_exceptions.md R168, 70_reset_and_hazards.md R192). -/
def cycleEvents {bw : Nat} (rst : Bool) (presented : Option (Txn bw)) (stepEnds : Bool) :
    List (Event bw) :=
  if rst then [.reset presented]
  else (presented.map Event.host).toList ++ (if stepEnds then [.engine] else [])

/-- The platform address of a register index (20_memory.md R54). -/
def registerAddress (b : Build) (addr : Index) : Nat := b.base + b.stride * addr.toNat

/-- The cycles for which a run with exponent `exponent` keeps BUSY = 1 (70_reset_and_hazards.md R206). -/
def runCycles (b : Build) (exponent : Nat) : Nat := (bitlen exponent + 1) * b.cycStep

end Sys2Proof.Machine
end

