-- ==== Sys2Proof/Machine/Step.lean ====
section
/-! DEFINITION. One step: the next event happens, atomically (20_memory.md R58). -/

namespace Sys2Proof.Machine

/-- One step. The first event of `events` happens and leaves the list. With no event to come, the engine
takes its next step while it is running (weak fairness, 20_memory.md R59, log 4), and an idle machine
stays as it is. -/
def step (s : State) : Host.Outcome State Fault Refusal :=
  match s.events with
  | [] => .next (s.withEngine (engineTurn s.engine))
  | .host t :: rest => exec (decode t) (s.withEvents rest)
  | .engine :: rest => .next { s with engine := engineTurn s.engine, events := rest }
  | .reset presented :: rest => .next (resetState s presented rest)
  | .splitAccess :: _ => .refused .splitAccess
  | .powerRemoved :: _ => .refused .powerRemoved

/-- The transaction of the table word `w` stands first among the events, so that the next step runs it
(log 19). -/
def State.withFetchWord (s : State) (nbits w : Nat) : State :=
  s.withEvents (.host (Txn.ofWord s.build.bw (w % 2 ^ nbits)) :: s.events)

end Sys2Proof.Machine
end

