-- ==== Sys2Proof/Machine/Assembly.lean ====
section
/-! DEFINITION. The host assembly of 30_encoding.md R78 and the pseudo-instructions of R79, as functions
to transactions. The host's own control flow (R80) does nothing to the engine: a `wait` loop is a number
of reads of STATUS, one for each time round (log 20). -/

namespace Sys2Proof.Machine

/-- The register names of the assembly (30_encoding.md R78). -/
inductive RegName where
  | id | cmd | status | ie | opa | opb | opn | result
  /-- `r<k>` -/
  | r (k : Index)
deriving DecidableEq, Repr

/-- The index of a register name (10_state.md R20). -/
def regIndex : RegName → Index
  | .id => 0x0
  | .cmd => 0x1
  | .status => 0x2
  | .ie => 0x3
  | .opa => 0x4
  | .opb => 0x5
  | .opn => 0x6
  | .result => 0x7
  | .r k => k

/-- A line of host assembly that is a transaction (30_encoding.md R78). -/
inductive AsmLine where
  | rd (reg : RegName)
  | wr (reg : RegName) (value : Int)
  | cmd (op : BitVec 4)
deriving DecidableEq, Repr

/-- The data of `wr REG, VALUE`: a negative VALUE means `pat(VALUE)` (30_encoding.md R74, R78). R74 lets the host
extend it to BW bits with zeros or with the sign; the model zero-extends it (DESIGN CHOICE, log 24). R78 gives
VALUE no bound: of a non-negative VALUE that does not fit BW bits the model drops the bits above BW-1, and of a
negative VALUE below MINV it takes `VALUE mod 2^W` (DESIGN CHOICE, log 25). -/
def asmData (b : Build) (value : Int) : BitVec b.bw :=
  if value < 0 then zext b.bw (pat b.width value) else BitVec.ofNat b.bw value.toNat

/-- The transaction of a line. -/
def asmTxn (b : Build) : AsmLine → Txn b.bw
  | .rd reg => .read (regIndex reg)
  | .wr reg value => .write (regIndex reg) (asmData b value)
  | .cmd op => .write 0x1 (zext b.bw op)

/-- The opcodes of the named commands (30_encoding.md R73). -/
def opNop : BitVec 4 := 0
/-- POWMOD -/
def opPowmod : BitVec 4 := 1
/-- CLEAR -/
def opClear : BitVec 4 := 2

/-- `clear` (30_encoding.md R79). -/
def asmClear : List AsmLine := [.cmd opClear]

/-- `wait tS` that goes round `polls` times (30_encoding.md R79). -/
def asmWait (polls : Nat) : List AsmLine := List.replicate polls (.rd .status)

/-- The test of `wait`: go round again while the STATUS read has BUSY = 1 (30_encoding.md R79). -/
def waitAgain {bw : Nat} (status : BitVec bw) : Bool := status.getLsbD 0

/-- The test of `powmod` after `wait`: the command was refused (30_encoding.md R79). -/
def powmodRefused {bw : Nat} (status : BitVec bw) : Bool := status.getLsbD 2

/-- `powmod tR, A, B, N` up to the command (30_encoding.md R79). -/
def asmPowmodIssue (a b n : Int) : List AsmLine :=
  [.wr .opa a, .wr .opb b, .wr .opn n, .cmd opPowmod]

/-- `powmod tR, A, B, N` whose `wait` goes round `polls` times and whose POWMOD is not refused
(30_encoding.md R79). -/
def asmPowmod (polls : Nat) (a b n : Int) : List AsmLine :=
  asmPowmodIssue a b n ++ asmWait polls ++ [.rd .result]

/-- The host events of a list of lines. -/
def asmEvents (b : Build) (lines : List AsmLine) : List (Event b.bw) :=
  lines.map fun l => .host (asmTxn b l)

end Sys2Proof.Machine
end

