-- ==== Sys2Proof/Safety.lean ====
section
/-! DEFINITION. The terms the statements use: the invariant of the machine, the loop invariant of a run,
the frame vocabulary, and the states that a run reaches. -/

namespace Sys2Proof.Machine

/-! ## The invariant -/

/-- ERRCODE is 0 exactly when ERR is 0 (10_state.md R26), and codes 6 to 15 are never written
(60_exceptions.md R160). -/
abbrev errorRecordOk {w : Nat} (e : Engine w) : Prop :=
  (e.errcode = 0 ↔ e.err = false) ∧ e.errcode.toNat ≤ 5

/-- The bounds of 10_state.md R30 on the working registers of a run. -/
abbrev runBounds (b : Build) (e : Engine b.width) : Prop :=
  1 ≤ e.wmod.toNat ∧ e.wmod.toNat ≤ nmax b ∧ e.wbase.toNat < e.wmod.toNat ∧
    e.wacc.toNat < e.wmod.toNat ∧ e.wexp.toNat ≤ maxv b

/-- An error recorded during a run, or beside DONE, is ILLEGAL_CMD or BUSY
(70_reset_and_hazards.md R197). -/
abbrev interfaceErrorOnly {w : Nat} (e : Engine w) : Prop :=
  e.errcode = 0 ∨ e.errcode = errorCode .illegalCmd ∨ e.errcode = errorCode .busy

/-- What every engine record on a run from reset satisfies: the error record (R26), the range of RESULT
(10_state.md R33), the bounds of a run (R30), DONE = 0 during a run (41_commands.md R125), and no
refusal's code during a run or beside DONE (R197). -/
abbrev engineInv (b : Build) (e : Engine b.width) : Prop :=
  errorRecordOk e ∧ e.result.toNat < nmax b ∧ (e.phase = .run → runBounds b e ∧ e.done = false) ∧
    (e.phase = .run ∨ e.done = true → interfaceErrorOnly e)

/-- The invariant of the machine. -/
abbrev State.Inv (s : State) : Prop := engineInv s.build s.engine

/-- The loop invariant of a run with operands `a`, `b`, `n` (42_engine.md R144), without the part R30
states. -/
abbrev loopInv {w : Nat} (e : Engine w) (a : Int) (b : Nat) (n : Int) : Prop :=
  (e.wmod.toNat : Int) = n ∧ e.wacc.toNat < e.wmod.toNat ∧ e.wbase.toNat < e.wmod.toNat ∧
    fmod (e.wacc.toNat * (e.wbase.toNat : Int) ^ e.wexp.toNat) n = fmod (a ^ b) n

/-! ## When a POWMOD starts a run (41_commands.md R122) -/

/-- The operand checks of 41_commands.md R122 pass: guard, modulus, exponent. -/
abbrev operandsAdmitted (b : Build) (e : Engine b.width) : Prop :=
  val b.signed e.opn - 1 ≤ guardLimit b ∧ 0 < val b.signed e.opn ∧ 0 ≤ val b.signed e.opb

/-- The exact value of a run, `fmod(a^b, n)` (42_engine.md R145), of the operands an engine record
holds. -/
def powModValue (b : Build) (e : Engine b.width) : Int :=
  fmod (val b.signed e.opa ^ (val b.signed e.opb).toNat) (val b.signed e.opn)

/-! ## Encodings -/

/-- The transaction `t` is accepted by the opcode-map row `pattern`, `mask` (30_encoding.md R72, R75) and
spells the instruction `i`. -/
abbrev spells {bw : Nat} (t : Txn bw) (pattern mask : BitVec 9) (i : Instr) : Prop :=
  t.key &&& mask = pattern ∧ decode t = i

/-! ## Frames -/

/-- OPA, OPB, OPN and IE are the same. -/
abbrev sameOperands {w : Nat} (e f : Engine w) : Prop :=
  e.opa = f.opa ∧ e.opb = f.opb ∧ e.opn = f.opn ∧ e.ie = f.ie

/-- DONE, ERR and ERRCODE are the same. -/
abbrev sameStatus {w : Nat} (e f : Engine w) : Prop :=
  e.done = f.done ∧ e.err = f.err ∧ e.errcode = f.errcode

/-- The phase and the working registers are the same. -/
abbrev sameRun {w : Nat} (e f : Engine w) : Prop :=
  e.phase = f.phase ∧ e.wbase = f.wbase ∧ e.wexp = f.wexp ∧ e.wmod = f.wmod ∧ e.wacc = f.wacc

/-- The records agree but for the working registers, which no transaction observes (10_state.md R36). -/
abbrev sameVisible {w : Nat} (e f : Engine w) : Prop :=
  sameOperands e f ∧ sameStatus e f ∧ e.phase = f.phase ∧ e.result = f.result

/-! ## What the next step is -/

/-- The next event is the presentation of a transaction that spells `i`. -/
abbrev nextInstr (s : State) (i : Instr) : Prop := ∃ x rest, s.events = .host x :: rest ∧ decode x = i

/-- The engine agent has the next turn: an engine slot, or no event to come (log 4). -/
abbrev nextIsEngine (s : State) : Prop := s.events = [] ∨ ∃ rest, s.events = .engine :: rest

/-- The next event is a reset. -/
abbrev nextIsReset (s : State) : Prop := ∃ p rest, s.events = .reset p :: rest

/-- The next step is a FINISH (42_engine.md R141). -/
abbrev finishes (s : State) : Prop := nextIsEngine s ∧ s.engine.phase = .run ∧ s.engine.wexp.toNat = 0

/-- The next step accepts a CMD.POWMOD: it is written while IDLE (41_commands.md R121). -/
abbrev acceptsPowmod (s : State) : Prop := (∃ high, nextInstr s (.cmdPowmod high)) ∧ s.engine.phase = .idle

/-- The next step accepts a CMD.CLEAR (41_commands.md R121). -/
abbrev acceptsClear (s : State) : Prop := (∃ high, nextInstr s (.cmdClear high)) ∧ s.engine.phase = .idle

/-- The next step rejects a command: a reserved opcode, or POWMOD or CLEAR during a run
(41_commands.md R121). -/
abbrev rejectsCommand (s : State) : Prop :=
  (∃ opcode high, nextInstr s (.cmdRsvd opcode high)) ∨
    ((∃ high, nextInstr s (.cmdPowmod high) ∨ nextInstr s (.cmdClear high)) ∧ s.engine.phase = .run)

/-- The next step starts a run (41_commands.md R122). -/
abbrev startsRun (s : State) : Prop := acceptsPowmod s ∧ operandsAdmitted s.build s.engine

/-- The next step refuses an accepted CMD.POWMOD (41_commands.md R122). -/
abbrev refusesPowmod (s : State) : Prop := acceptsPowmod s ∧ ¬ operandsAdmitted s.build s.engine

/-! ## Runs -/

/-- An event that is a host transaction or an engine slot. -/
def ordinary {bw : Nat} : Event bw → Bool
  | .host _ => true
  | .engine => true
  | .reset _ => false
  | .splitAccess => false
  | .powerRemoved => false

/-- The states that runs of a build reach from reset, whatever events are scheduled
(70_reset_and_hazards.md R190: "the initial condition of every model run is the state after reset"). -/
inductive Reachable (b : Build) : State → Prop where
  | reset (evs : List (Event (State.resetOf b).build.bw)) : Reachable b ((State.resetOf b).withEvents evs)
  | step {s t : State} : Reachable b s → step s = .next t → Reachable b t

end Sys2Proof.Machine
end

