-- ==== Sys2Proof/Certificates/Slice0/Obligations.lean ====
section
/-! DEFINITION. The statements about the machine, for the provers. -/

open Sys2Proof Sys2Proof.Machine

/-! ## Encoding -/

/-- Decoding the transaction that encodes a well-formed instruction gives the instruction back, with every
operand at every value: no bit of an encoding is dropped (30_encoding.md R70, R73, R75). -/
def Obligations.DecodeOfEncodeIsIdentity : Prop :=
  ∀ (b : Build) (i : Instr), i.wellFormed b.bw = true → decode (encode b.bw i) = i

/-- Every transaction decodes to a well-formed instruction that encodes back to it
(30_encoding.md R77). -/
def Obligations.EncodeOfDecodeIsIdentity : Prop :=
  ∀ (b : Build) (t : Txn b.bw), (decode t).wellFormed b.bw = true ∧ encode b.bw (decode t) = t

/-- The key of every transaction is accepted by exactly one row of the opcode map, the row of the
instruction it decodes to (30_encoding.md R72, R75, R77). -/
def Obligations.ExactlyOneOpcodeRowMatches : Prop :=
  ∀ (b : Build) (t : Txn b.bw), ∃ row ∈ opcodeMap,
    row.accepts t.key = true ∧ row.mnemonic = (decode t).mnemonic ∧
      ∀ other ∈ opcodeMap, other.accepts t.key = true → other = row

/-- The number of a transaction's bits determines it. The place of the data bits above K is the model's
choice (log 10). -/
def Obligations.TransactionWordRoundTrip : Prop :=
  ∀ (b : Build) (t : Txn b.bw), Txn.ofWord b.bw t.toWord = t

/-- A few words written out from the opcode map and the programs of 95_test_vectors.md. -/
def Obligations.SampleWordsDecode : Prop :=
  decodeTableWord 16 0x020 = some (.rd 0x2) ∧ decodeTableWord 16 0x111 = some (.cmdPowmod 0) ∧
  decodeTableWord 16 0x112 = some (.cmdClear 0) ∧ decodeTableWord 16 0x117 = some (.cmdRsvd 7 0) ∧
  decodeTableWord 16 0x14d = some (.wrOpa 0xd) ∧ decodeTableWord 16 0x1f3 = some (.wrRsvd 0xf 3)

/-! ## The step -/

/-- A step is the first event: the meaning of the instruction that the presented transaction spells, the
engine's turn, a reset; with no event to come, the engine's turn (log 4). -/
def Obligations.StepRunsTheFirstEvent : Prop :=
  ∀ (s : State) (rest : List (Event s.build.bw)),
    (∀ t, s.events = .host t :: rest → step s = exec (decode t) (s.withEvents rest)) ∧
    (s.events = .engine :: rest →
      step s = .next { s with engine := engineTurn s.engine, events := rest }) ∧
    (∀ p, s.events = .reset p :: rest → step s = .next (resetState s p rest)) ∧
    (s.events = [] → step s = .next (s.withEngine (engineTurn s.engine)))

/-- A step of a state that a table word was placed in runs the instruction the word spells (log 19). -/
def Obligations.FetchWordIsRunNext : Prop :=
  ∀ (s : State) (nbits w : Nat),
    step (s.withFetchWord nbits w) = exec (decode (Txn.ofWord s.build.bw (w % 2 ^ nbits))) s

/-- Every step answers a next state, but for the two platform events the spec says to refuse
(20_memory.md R51, 60_exceptions.md R180), which are refused by name. -/
def Obligations.StepRefusesOnlyPlatformEvents : Prop :=
  ∀ (s : State),
    (∀ rest, s.events = .splitAccess :: rest → step s = .refused .splitAccess) ∧
    (∀ rest, s.events = .powerRemoved :: rest → step s = .refused .powerRemoved) ∧
    ((∀ rest, s.events ≠ .splitAccess :: rest) → (∀ rest, s.events ≠ .powerRemoved :: rest) →
      ∃ t, step s = .next t)

/-- No step changes the build parameters, so ID is constant (00_scope.md R6, R7; 10_state.md R21). -/
def Obligations.BuildNeverChanges : Prop :=
  ∀ s t : State, step s = .next t → t.build = s.build ∧ idWord t.build = idWord s.build

/-! ## Host access -/

/-- RD answers the register map's value, zero-extended, and nothing else changes: the fields of ID
(10_state.md R21) and STATUS (R23), 0 for CMD and the reserved indices (40_host_access.md R100). -/
def Obligations.ReadAnswersRegisterMap : Prop :=
  ∀ (s : State) (a : Index),
    spells (Txn.read (bw := s.build.bw) a) 0x000 0x100 (.rd a) ∧
    ∃ r : BitVec s.build.bw, exec (.rd a) s = .next (s.respond r) ∧
    (a = 0x0 → r.toNat = s.build.width + 2 ^ 16 * s.build.signed.toNat + 2 ^ 24 * 0x01) ∧
    (a = 0x1 → r.toNat = 0) ∧
    (a = 0x2 → r.toNat = (if s.engine.phase = .run then 1 else 0) + 2 * s.engine.done.toNat +
      4 * s.engine.err.toNat + 8 * (s.engine.ie && (s.engine.done || s.engine.err)).toNat +
      16 * s.engine.errcode.toNat) ∧
    (a = 0x3 → r.toNat = s.engine.ie.toNat) ∧
    (a = 0x4 → r.toNat = s.engine.opa.toNat) ∧
    (a = 0x5 → r.toNat = s.engine.opb.toNat) ∧
    (a = 0x6 → r.toNat = s.engine.opn.toNat) ∧
    (a = 0x7 → r.toNat = s.engine.result.toNat) ∧
    (0x8 ≤ a.toNat → r.toNat = 0)

/-- Writes to IE, OPA, OPB and OPN are idempotent (20_memory.md R53). -/
def Obligations.StoringWritesAreIdempotent : Prop :=
  ∀ (s : State) (i : Instr) (d : Nat), i = .wrIe d ∨ i = .wrOpa d ∨ i = .wrOpb d ∨ i = .wrOpn d →
    ∃ t, exec i s = .next t ∧ exec i t = .next t

/-- WR.IE stores `data[0]`, in any phase; the interrupt level follows at once; nothing else changes
(40_host_access.md R101). -/
def Obligations.WriteIeStoresBitZero : Prop :=
  ∀ (s : State),
    (∀ data : BitVec s.build.bw, spells (.write 0x3 data) 0x130 0x1F0 (.wrIe data.toNat)) ∧
    ∀ d : Nat, ∃ e, exec (.wrIe d) s = .next (s.withEngine e) ∧
    (e.ie = true ↔ d % 2 = 1) ∧
    (irq e = true ↔ d % 2 = 1 ∧ (s.engine.done = true ∨ s.engine.err = true)) ∧
    e.opa = s.engine.opa ∧ e.opb = s.engine.opb ∧ e.opn = s.engine.opn ∧
    e.result = s.engine.result ∧ sameStatus e s.engine ∧ sameRun e s.engine

/-- WR.OPA, WR.OPB and WR.OPN store `data[W-1:0]` and drop the bits above, in any phase; nothing else
changes, the run in progress included (40_host_access.md R102, R103, R104). -/
def Obligations.WriteOperandKeepsLowBits : Prop :=
  ∀ (s : State),
    (∀ data : BitVec s.build.bw, spells (.write 0x4 data) 0x140 0x1F0 (.wrOpa data.toNat) ∧
      spells (.write 0x5 data) 0x150 0x1F0 (.wrOpb data.toNat) ∧
      spells (.write 0x6 data) 0x160 0x1F0 (.wrOpn data.toNat)) ∧
    ∀ d : Nat,
    (∃ e, exec (.wrOpa d) s = .next (s.withEngine e) ∧ e.opa.toNat = d % 2 ^ s.build.width ∧
      e.opb = s.engine.opb ∧ e.opn = s.engine.opn ∧ e.ie = s.engine.ie ∧
      e.result = s.engine.result ∧ sameStatus e s.engine ∧ sameRun e s.engine) ∧
    (∃ e, exec (.wrOpb d) s = .next (s.withEngine e) ∧ e.opb.toNat = d % 2 ^ s.build.width ∧
      e.opa = s.engine.opa ∧ e.opn = s.engine.opn ∧ e.ie = s.engine.ie ∧
      e.result = s.engine.result ∧ sameStatus e s.engine ∧ sameRun e s.engine) ∧
    (∃ e, exec (.wrOpn d) s = .next (s.withEngine e) ∧ e.opn.toNat = d % 2 ^ s.build.width ∧
      e.opa = s.engine.opa ∧ e.opb = s.engine.opb ∧ e.ie = s.engine.ie ∧
      e.result = s.engine.result ∧ sameStatus e s.engine ∧ sameRun e s.engine)

/-- An operand written and read back is the raw pattern, zero-extended and never sign-extended
(10_state.md R32). -/
def Obligations.OperandReadsBackZeroExtended : Prop :=
  ∀ (s : State) (d : Nat) (i : Instr) (a : Index),
    (i = .wrOpa d ∧ a = 0x4) ∨ (i = .wrOpb d ∧ a = 0x5) ∨ (i = .wrOpn d ∧ a = 0x6) →
    ∃ t u, exec i s = .next t ∧ exec (.rd a) t = .next u ∧
      u.responses.map BitVec.toNat = (d % 2 ^ s.build.width) :: s.responses.map BitVec.toNat

/-- Writes to ID, STATUS, RESULT and the reserved indices change nothing, in any phase
(40_host_access.md R105 to R108). -/
def Obligations.ReadOnlyWritesChangeNothing : Prop :=
  ∀ (s : State),
    (∀ data : BitVec s.build.bw, spells (.write 0x0 data) 0x100 0x1F0 (.wrId data.toNat) ∧
      spells (.write 0x2 data) 0x120 0x1F0 (.wrStatus data.toNat) ∧
      spells (.write 0x7 data) 0x170 0x1F0 (.wrResult data.toNat) ∧
      ∀ a : Index, 0x8 ≤ a.toNat → spells (.write a data) 0x180 0x180 (.wrRsvd a data.toNat)) ∧
    ∀ (d : Nat) (a : Index),
    exec (.wrId d) s = .next s ∧ exec (.wrStatus d) s = .next s ∧ exec (.wrResult d) s = .next s ∧
      exec (.wrRsvd a d) s = .next s

/-! ## Commands -/

/-- CMD.NOP changes nothing, in either phase, whatever the ignored bits (41_commands.md R120). -/
def Obligations.NopChangesNothing : Prop :=
  ∀ (s : State) (high : Nat),
    (∀ data : BitVec s.build.bw, data.toNat % 16 = 0 →
      spells (.write 0x1 data) 0x110 0x1FF (.cmdNop (data.toNat / 16))) ∧
    exec (.cmdNop high) s = .next s

/-- Every write to CMD takes exactly one branch of the decode order: the opcode is resolved before the
phase, so that a reserved opcode reports ILLEGAL_CMD in any phase (41_commands.md R121). -/
def Obligations.CommandDecodeOrder : Prop :=
  ∀ (s : State) (d : BitVec s.build.bw),
    (d.toNat % 16 = 0 → exec (decode (.write 0x1 d)) s = .next s) ∧
    (3 ≤ d.toNat % 16 →
      exec (decode (.write 0x1 d)) s = .next (s.withEngine (s.engine.raise .illegalCmd))) ∧
    (d.toNat % 16 = 1 ∨ d.toNat % 16 = 2 → s.engine.phase = .run →
      exec (decode (.write 0x1 d)) s = .next (s.withEngine (s.engine.raise .busy))) ∧
    (d.toNat % 16 = 1 → s.engine.phase = .idle →
      exec (decode (.write 0x1 d)) s = .next (s.withEngine (acceptPowmod s.build s.engine))) ∧
    (d.toNat % 16 = 2 → s.engine.phase = .idle →
      exec (decode (.write 0x1 d)) s = .next (s.withEngine s.engine.clearStatus))

/-- `raise E(code)` sets ERR and ERRCODE and nothing else, whatever the phase, with the codes of R160
(60_exceptions.md R161). -/
def Obligations.RaiseSetsOnlyTheErrorRecord : Prop :=
  (∀ (w : Nat) (e : Engine w) (k : ErrorKind),
    (e.raise k).err = true ∧ (e.raise k).errcode = errorCode k ∧ (e.raise k).done = e.done ∧
    (e.raise k).result = e.result ∧ sameOperands (e.raise k) e ∧ sameRun (e.raise k) e) ∧
  errorCode .overflow = 1 ∧ errorCode .domainModulus = 2 ∧ errorCode .domainExponent = 3 ∧
  errorCode .illegalCmd = 4 ∧ errorCode .busy = 5

/-- CMD.RSVD, the opcodes 0x3 to 0xF, raises ILLEGAL_CMD (4) in either phase and changes nothing else
(41_commands.md R126, 60_exceptions.md R165). -/
def Obligations.ReservedOpcodeRaisesIllegalCmd : Prop :=
  ∀ (s : State) (opcode : BitVec 4) (high : Nat),
    (∀ data : BitVec s.build.bw, 3 ≤ data.toNat % 16 → ∃ i,
      i = .cmdRsvd (data.setWidth 4) (data.toNat / 16) ∧
      (spells (.write 0x1 data) 0x113 0x1FF i ∨ spells (.write 0x1 data) 0x114 0x1FC i ∨
        spells (.write 0x1 data) 0x118 0x1F8 i)) ∧
    ∃ e, exec (.cmdRsvd opcode high) s = .next (s.withEngine e) ∧ e.err = true ∧ e.errcode = 4 ∧
    e.done = s.engine.done ∧ e.result = s.engine.result ∧ sameOperands e s.engine ∧ sameRun e s.engine

/-- CMD.POWMOD and CMD.CLEAR written during a run raise BUSY (5) and change nothing else
(41_commands.md R125, 60_exceptions.md R166). -/
def Obligations.BusyRejection : Prop :=
  ∀ (s : State) (i : Instr) (high : Nat), i = .cmdPowmod high ∨ i = .cmdClear high →
    s.engine.phase = .run → ∃ e, exec i s = .next (s.withEngine e) ∧ e.err = true ∧ e.errcode = 5 ∧
      e.done = s.engine.done ∧ e.result = s.engine.result ∧ sameOperands e s.engine ∧
      sameRun e s.engine

/-- CMD.CLEAR while IDLE clears DONE, ERR and ERRCODE, so irq drops to 0, and keeps the rest; during a run
it clears nothing and raises BUSY (41_commands.md R124). -/
def Obligations.ClearResetsTheStatus : Prop :=
  ∀ (s : State) (high : Nat),
    (∀ data : BitVec s.build.bw, data.toNat % 16 = 2 →
      spells (.write 0x1 data) 0x112 0x1FF (.cmdClear (data.toNat / 16))) ∧
    (s.engine.phase = .idle → ∃ e,
      exec (.cmdClear high) s = .next (s.withEngine e) ∧ e.done = false ∧ e.err = false ∧
      e.errcode = 0 ∧ irq e = false ∧ e.result = s.engine.result ∧ sameOperands e s.engine ∧
      sameRun e s.engine) ∧
    (s.engine.phase = .run →
      exec (.cmdClear high) s = .next (s.withEngine (s.engine.raise .busy)))

/-- An accepted CMD.POWMOD whose operands pass the checks clears the previous outcome and starts a run
(41_commands.md R122): the modulus, the reduced base, the exponent and `fmod(1, n)` are in the
working registers, the phase is RUN, and RESULT, IE and the operands are kept. -/
def Obligations.PowmodStartsARun : Prop :=
  ∀ (s : State) (high : Nat), s.engine.phase = .idle → operandsAdmitted s.build s.engine → ∃ e,
    exec (.cmdPowmod high) s = .next (s.withEngine e) ∧ e.phase = .run ∧ e.done = false ∧
    e.err = false ∧ e.errcode = 0 ∧
    (e.wmod.toNat : Int) = val s.build.signed s.engine.opn ∧
    (e.wbase.toNat : Int) =
      fmod (val s.build.signed s.engine.opa) (val s.build.signed s.engine.opn) ∧
    (e.wexp.toNat : Int) = val s.build.signed s.engine.opb ∧
    (e.wacc.toNat : Int) = (if val s.build.signed s.engine.opn = 1 then 0 else 1) ∧
    e.result = s.engine.result ∧ sameOperands e s.engine

/-- CMD.POWMOD written while IDLE, whole (41_commands.md R122): acceptance clears DONE, ERR and ERRCODE; the
first failing check raises its error and starts nothing; else the working registers are loaded and the phase
becomes RUN; RESULT and the operands are kept in every case. -/
def Obligations.PowmodChecksThenStarts : Prop :=
  ∀ (s : State) (high : Nat),
    (∀ data : BitVec s.build.bw, data.toNat % 16 = 1 →
      spells (.write 0x1 data) 0x111 0x1FF (.cmdPowmod (data.toNat / 16))) ∧
    (s.engine.phase = .idle → ∃ e, exec (.cmdPowmod high) s = .next (s.withEngine e) ∧
      e.done = false ∧ e.result = s.engine.result ∧ sameOperands e s.engine ∧
      ((val s.build.signed s.engine.opn - 1 > guardLimit s.build ∧
          e.err = true ∧ e.errcode = 1 ∧ sameRun e s.engine) ∨
        (val s.build.signed s.engine.opn - 1 ≤ guardLimit s.build ∧
          val s.build.signed s.engine.opn ≤ 0 ∧ e.err = true ∧ e.errcode = 2 ∧ sameRun e s.engine) ∨
        (val s.build.signed s.engine.opn - 1 ≤ guardLimit s.build ∧
          0 < val s.build.signed s.engine.opn ∧ val s.build.signed s.engine.opb < 0 ∧ s.build.signed = true ∧
          e.err = true ∧ e.errcode = 3 ∧ sameRun e s.engine) ∨
        (operandsAdmitted s.build s.engine ∧ e.err = false ∧ e.errcode = 0 ∧ e.phase = .run ∧
          busy e = true ∧ (e.wmod.toNat : Int) = val s.build.signed s.engine.opn ∧
          (e.wbase.toNat : Int) =
            fmod (val s.build.signed s.engine.opa) (val s.build.signed s.engine.opn) ∧
          (e.wexp.toNat : Int) = val s.build.signed s.engine.opb ∧
          (e.wacc.toNat : Int) = fmod 1 (val s.build.signed s.engine.opn))))

/-- An accepted CMD.POWMOD is refused with OVERFLOW (1) exactly when `n - 1 > GUARD`, that is `n > NMAX`,
whatever the base and the exponent are, and nothing is computed: only the outcome of the previous command
is cleared (41_commands.md R123, 60_exceptions.md R162). -/
def Obligations.GuardRefusesWithOverflow : Prop :=
  ∀ (s : State) (high : Nat), s.engine.phase = .idle → ∃ e,
    exec (.cmdPowmod high) s = .next (s.withEngine e) ∧
    (e.errcode = 1 ↔ val s.build.signed s.engine.opn - 1 > guardLimit s.build) ∧
    (val s.build.signed s.engine.opn - 1 > guardLimit s.build ↔
      val s.build.signed s.engine.opn > nmax s.build) ∧
    (val s.build.signed s.engine.opn - 1 > guardLimit s.build → e.err = true ∧
      e.done = false ∧ e.result = s.engine.result ∧ sameOperands e s.engine ∧ sameRun e s.engine)

/-- An accepted CMD.POWMOD is refused with DOMAIN_MODULUS (2) exactly when `n <= 0`, where the guard passes and
only the outcome of the previous command is cleared; when unsigned, the pattern 0 alone raises this error; when
SIGNED, 0 and every negative modulus do (60_exceptions.md R163). -/
def Obligations.NonPositiveModulusRefused : Prop :=
  ∀ (s : State) (high : Nat), s.engine.phase = .idle → ∃ e,
    exec (.cmdPowmod high) s = .next (s.withEngine e) ∧
    (e.errcode = 2 ↔ val s.build.signed s.engine.opn ≤ 0) ∧
    (val s.build.signed s.engine.opn ≤ 0 →
      val s.build.signed s.engine.opn - 1 ≤ guardLimit s.build ∧ e.err = true ∧
      e.done = false ∧ e.result = s.engine.result ∧ sameOperands e s.engine ∧ sameRun e s.engine) ∧
    (s.build.signed = false → (e.errcode = 2 ↔ s.engine.opn = 0)) ∧
    (s.build.signed = true →
      (e.errcode = 2 ↔ s.engine.opn = 0 ∨ s.engine.opn.getLsbD (s.build.width - 1) = true))

/-- An accepted CMD.POWMOD is refused with DOMAIN_EXPONENT (3) exactly when the guard and the modulus check pass
and the exponent is negative, and then only the outcome of the previous command is cleared; the error is never
raised when unsigned (60_exceptions.md R164). -/
def Obligations.NegativeExponentRefused : Prop :=
  ∀ (s : State) (high : Nat), s.engine.phase = .idle → ∃ e,
    exec (.cmdPowmod high) s = .next (s.withEngine e) ∧
    (e.errcode = 3 ↔ val s.build.signed s.engine.opn - 1 ≤ guardLimit s.build ∧
      0 < val s.build.signed s.engine.opn ∧ val s.build.signed s.engine.opb < 0) ∧
    (e.errcode = 3 → s.build.signed = true ∧ e.err = true ∧ e.done = false ∧
      e.result = s.engine.result ∧ sameOperands e s.engine ∧ sameRun e s.engine)

/-- One command raises at most one error, and the first that applies wins:
ILLEGAL_CMD > BUSY > OVERFLOW > DOMAIN_MODULUS > DOMAIN_EXPONENT (60_exceptions.md R167). -/
def Obligations.OneErrorByPriority : Prop :=
  ∀ (s : State) (d : BitVec s.build.bw), ∃ e,
    exec (decode (.write 0x1 d)) s = .next (s.withEngine e) ∧
    (3 ≤ d.toNat % 16 → e.err = true ∧ e.errcode = 4) ∧
    (d.toNat % 16 = 1 ∨ d.toNat % 16 = 2 → s.engine.phase = .run → e.err = true ∧ e.errcode = 5) ∧
    (d.toNat % 16 = 1 → s.engine.phase = .idle →
      (val s.build.signed s.engine.opn - 1 > guardLimit s.build → e.err = true ∧ e.errcode = 1) ∧
      (val s.build.signed s.engine.opn ≤ 0 → e.err = true ∧ e.errcode = 2) ∧
      (val s.build.signed s.engine.opn - 1 ≤ guardLimit s.build → 0 < val s.build.signed s.engine.opn →
        val s.build.signed s.engine.opb < 0 → e.err = true ∧ e.errcode = 3) ∧
      (operandsAdmitted s.build s.engine → e.err = false ∧ e.errcode = 0)) ∧
    (d.toNat % 16 = 2 → s.engine.phase = .idle → e.err = false ∧ e.errcode = 0) ∧
    (d.toNat % 16 = 0 → e.err = s.engine.err ∧ e.errcode = s.engine.errcode)

/-! ## Arithmetic -/

/-- The guard compares exactly: for an integer n, `n - 1 > sqrt(MAXV)` holds exactly when `n - 1 > GUARD`,
that is when `n > NMAX`; `GUARD^2 <= MAXV` at every W; and the table of values (00_scope.md R9). -/
def Obligations.GuardIsTheSquareRootTest : Prop :=
  (∀ (b : Build) (n : Int),
    (((n - 1 : Int) : ℝ) > Real.sqrt (maxv b) ↔ n - 1 > guardLimit b) ∧ (n - 1 > guardLimit b ↔ n > nmax b) ∧
    guardLimit b = isqrt (maxv b) ∧ nmax b = guardLimit b + 1 ∧ guardLimit b * guardLimit b ≤ maxv b) ∧
  (∀ b : Build,
    (b.width = 8 → b.signed = false → maxv b = 255 ∧ guardLimit b = 15 ∧ nmax b = 16) ∧
    (b.width = 8 → b.signed = true → maxv b = 127 ∧ guardLimit b = 11 ∧ nmax b = 12) ∧
    (b.width = 16 → b.signed = false → maxv b = 65535 ∧ guardLimit b = 255 ∧ nmax b = 256) ∧
    (b.width = 16 → b.signed = true → maxv b = 32767 ∧ guardLimit b = 181 ∧ nmax b = 182) ∧
    (b.width = 32 → b.signed = false → maxv b = 4294967295 ∧ guardLimit b = 65535 ∧ nmax b = 65536) ∧
    (b.width = 32 → b.signed = true → maxv b = 2147483647 ∧ guardLimit b = 46340 ∧ nmax b = 46341) ∧
    (b.width = 64 → b.signed = false → maxv b = 18446744073709551615 ∧ guardLimit b = 4294967295 ∧
      nmax b = 4294967296) ∧
    (b.width = 64 → b.signed = true → maxv b = 9223372036854775807 ∧ guardLimit b = 3037000499 ∧
      nmax b = 3037000500))

/-- `val` reads a pattern as two's complement when SIGNED and as unsigned otherwise, with values in
`[MINV, MAXV]`, and `pat` is its inverse (00_scope.md R13). -/
def Obligations.PatternsAndIntegersAgree : Prop :=
  ∀ (b : Build),
    (∀ r : BitVec b.width,
      (b.signed = true ∧ r.getLsbD (b.width - 1) = true → val b.signed r = r.toNat - 2 ^ b.width) ∧
      (¬ (b.signed = true ∧ r.getLsbD (b.width - 1) = true) → val b.signed r = r.toNat) ∧
      minv b ≤ val b.signed r ∧ val b.signed r ≤ maxv b ∧ pat b.width (val b.signed r) = r) ∧
    (∀ v : Int, minv b ≤ v → v ≤ maxv b →
      ((pat b.width v).toNat : Int) = v % 2 ^ b.width ∧ val b.signed (pat b.width v) = v)

/-- `fmod`, `isqrt` and `bitlen` are what 00_scope.md R14 says. -/
def Obligations.IntegerPrimitives : Prop :=
  (∀ x m : Int, 0 < m → 0 ≤ fmod x m ∧ fmod x m < m ∧ m ∣ x - fmod x m) ∧
  (∀ x : Nat, isqrt x * isqrt x ≤ x ∧ ∀ r : Nat, r * r ≤ x → r ≤ isqrt x) ∧
  bitlen 0 = 0 ∧ (∀ x : Nat, 0 < x → 2 ^ (bitlen x - 1) ≤ x ∧ x < 2 ^ bitlen x)

/-- The reduction of a base lies in `[0, n-1]` and differs from the base by a multiple of `n`, so it is the
floor-correct remainder, for negative bases with the value the rule gives (42_engine.md R148). -/
def Obligations.BaseReductionIsFloorCorrect : Prop :=
  ∀ a n : Int, 0 < n → 0 ≤ fmod a n ∧ fmod a n < n ∧
    n ∣ a - fmod a n ∧ (a < 0 → (n ∣ |a| → fmod a n = 0) ∧ (¬ n ∣ |a| → fmod a n = n - |a| % n))

/-- While a run is in progress, in every state that a run from reset reaches, the bounds of 10_state.md R30
hold and every product is at most `GUARD^2 <= MAXV`, which fits W bits. -/
def Obligations.RunBoundsAndProducts : Prop :=
  ∀ (b : Build) (s : State), Reachable b s → s.engine.phase = .run →
    1 ≤ s.engine.wmod.toNat ∧ s.engine.wmod.toNat ≤ nmax b ∧
    s.engine.wbase.toNat < s.engine.wmod.toNat ∧ s.engine.wacc.toNat < s.engine.wmod.toNat ∧
    s.engine.wexp.toNat ≤ maxv b ∧
    s.engine.wacc.toNat * s.engine.wbase.toNat ≤ (nmax b - 1) ^ 2 ∧
    s.engine.wbase.toNat * s.engine.wbase.toNat ≤ (nmax b - 1) ^ 2 ∧
    (nmax b - 1) ^ 2 = guardLimit b ^ 2 ∧ guardLimit b ^ 2 ≤ maxv b ∧ maxv b < 2 ^ b.width

/-! ## Engine steps -/

/-- The engine has a step exactly while `phase = RUN`, and takes FINISH, MULSQ or SQ by its exponent
register (42_engine.md R140). While IDLE it has none: that a slot which the event list gives an idle engine
passes, and changes nothing else, is the model's choice (log 5). -/
def Obligations.EngineStepSelection : Prop :=
  ∀ (s : State) (rest : List (Event s.build.bw)), s.events = .engine :: rest →
    (s.engine.phase = .idle → step s = .next (s.withEvents rest)) ∧
    (s.engine.phase = .run → s.engine.wexp.toNat = 0 →
      step s = .next { s with engine := s.engine.finish, events := rest }) ∧
    (s.engine.phase = .run → s.engine.wexp.toNat % 2 = 1 →
      step s = .next { s with engine := s.engine.mulsq, events := rest }) ∧
    (s.engine.phase = .run → s.engine.wexp.toNat ≠ 0 → s.engine.wexp.toNat % 2 = 0 →
      step s = .next { s with engine := s.engine.sq, events := rest })

/-- FINISH: when `phase = RUN` and `w.exp = 0`, RESULT takes w.acc, DONE is set, the phase becomes IDLE,
irq rises if IE is 1, and nothing else changes (42_engine.md R141). -/
def Obligations.FinishCompletesTheRun : Prop :=
  ∀ (s : State) (rest : List (Event s.build.bw)), s.events = .engine :: rest →
    s.engine.phase = .run → s.engine.wexp.toNat = 0 → ∃ e,
    step s = .next { s with engine := e, events := rest } ∧ e.result = s.engine.wacc ∧ e.done = true ∧
    e.phase = .idle ∧ irq e = s.engine.ie ∧ e.err = s.engine.err ∧ e.errcode = s.engine.errcode ∧
    sameOperands e s.engine ∧ e.wbase = s.engine.wbase ∧ e.wexp = s.engine.wexp ∧
    e.wmod = s.engine.wmod ∧ e.wacc = s.engine.wacc

/-- MULSQ: when the low bit of w.exp is set, the accumulator is multiplied by the base and the base is
squared, both from the values before the step, w.exp is shifted, and nothing else changes
(42_engine.md R142). The modulus is not 0, as in every run (R147). -/
def Obligations.MulsqMultipliesAndSquares : Prop :=
  ∀ (s : State) (rest : List (Event s.build.bw)), s.events = .engine :: rest →
    s.engine.phase = .run → s.engine.wexp.toNat % 2 = 1 → 1 ≤ s.engine.wmod.toNat → ∃ e,
    step s = .next { s with engine := e, events := rest } ∧
    e.wacc.toNat = s.engine.wacc.toNat * s.engine.wbase.toNat % s.engine.wmod.toNat ∧
    e.wbase.toNat = s.engine.wbase.toNat * s.engine.wbase.toNat % s.engine.wmod.toNat ∧
    e.wexp.toNat = s.engine.wexp.toNat / 2 ∧ e.wmod = s.engine.wmod ∧ e.phase = .run ∧
    e.result = s.engine.result ∧ sameOperands e s.engine ∧ sameStatus e s.engine

/-- SQ: when the low bit of a non-zero w.exp is clear, the base is squared, w.exp is shifted, and nothing
else changes (42_engine.md R143). -/
def Obligations.SqSquaresTheBase : Prop :=
  ∀ (s : State) (rest : List (Event s.build.bw)), s.events = .engine :: rest →
    s.engine.phase = .run → s.engine.wexp.toNat ≠ 0 → s.engine.wexp.toNat % 2 = 0 →
    1 ≤ s.engine.wmod.toNat → ∃ e,
    step s = .next { s with engine := e, events := rest } ∧ e.wacc = s.engine.wacc ∧
    e.wbase.toNat = s.engine.wbase.toNat * s.engine.wbase.toNat % s.engine.wmod.toNat ∧
    e.wexp.toNat = s.engine.wexp.toNat / 2 ∧ e.wmod = s.engine.wmod ∧ e.phase = .run ∧
    e.result = s.engine.result ∧ sameOperands e s.engine ∧ sameStatus e s.engine

/-! ## A run -/

/-- The loop invariant holds when a POWMOD starts a run, and every step keeps it while the run is in
progress: engine steps, and host transactions of any kind (42_engine.md R144). -/
def Obligations.LoopInvariantIsKept : Prop :=
  (∀ (s : State) (high : Nat), s.engine.phase = .idle → operandsAdmitted s.build s.engine →
    ∃ e, exec (.cmdPowmod high) s = .next (s.withEngine e) ∧ e.phase = .run ∧
    loopInv e (val s.build.signed s.engine.opa) (val s.build.signed s.engine.opb).toNat
      (val s.build.signed s.engine.opn)) ∧
  (∀ (s t : State) (a : Int) (b : Nat) (n : Int), s.engine.phase = .run → loopInv s.engine a b n →
    step s = .next t → t.engine.phase = .run → loopInv t.engine a b n)

/-- The length of a run: after k engine steps the run with exponent register b is still in progress
exactly when `k <= bitlen(b)`, so it takes `bitlen(b) + 1` steps; step k of them is MULSQ exactly when
bit k of b is set, so `popcount(b)` steps are MULSQ; and the largest count, reached at `b = MAXV`, is W + 1
when unsigned and W when SIGNED (42_engine.md R146). -/
def Obligations.RunTakesBitlenPlusOneSteps : Prop :=
  ∀ (b : Build) (e : Engine b.width), e.phase = .run →
    (∀ k : Nat, (engineTurn^[k] e).phase = .run ↔ k ≤ bitlen e.wexp.toNat) ∧
    (∀ k : Nat, k < bitlen e.wexp.toNat →
      ((engineTurn^[k] e).wexp.toNat % 2 = 1 ↔ e.wexp.getLsbD k = true)) ∧
    ((List.range (bitlen e.wexp.toNat)).countP fun k => decide ((engineTurn^[k] e).wexp.toNat % 2 = 1)) =
      (List.range b.width).countP e.wexp.getLsbD ∧
    (e.wexp.toNat ≤ maxv b →
      bitlen e.wexp.toNat + 1 ≤ (if b.signed then b.width else b.width + 1)) ∧
    (e.wexp.toNat = maxv b →
      bitlen e.wexp.toNat + 1 = (if b.signed then b.width else b.width + 1))

/-- A run that the host leaves alone ends, from every running state, after `bitlen(w.exp) + 1` steps
(20_memory.md R59, 42_engine.md R146). That a step with no event pending is the engine's turn is the model's
reading of weak fairness (log 4). -/
def Obligations.RunTerminatesWhenHostIsSilent : Prop :=
  ∀ s : State, s.engine.phase = .run → s.events = [] → ∃ t,
    Sys2Proof.core.run (bitlen s.engine.wexp.toNat + 1) s = .next t ∧ t.engine.phase = .idle ∧
    t.engine.done = true

/-- A POWMOD that starts a run ends it with `RESULT = fmod(a^b, n)`, `0 <= RESULT < n`, DONE set and no
error, after exactly `bitlen(b) + 1` engine steps; the value is 0 for `n = 1`, `fmod(1, n)` for `b = 0`
and 0 for `a = 0`, `b > 0` (42_engine.md R145, R146). The run is left alone: that a step with no event pending
is the engine's turn is the model's reading of weak fairness (log 4). -/
def Obligations.RunComputesThePower : Prop :=
  ∀ (s : State) (high : Nat), s.engine.phase = .idle → operandsAdmitted s.build s.engine →
    s.events = [] → ∃ t u, exec (.cmdPowmod high) s = .next t ∧
    Sys2Proof.core.run (bitlen (val s.build.signed s.engine.opb).toNat + 1) t = .next u ∧
    (u.engine.result.toNat : Int) = powModValue s.build s.engine ∧
    0 ≤ powModValue s.build s.engine ∧
    powModValue s.build s.engine < val s.build.signed s.engine.opn ∧
    u.engine.phase = .idle ∧ u.engine.done = true ∧ u.engine.err = false ∧
    (val s.build.signed s.engine.opn = 1 → u.engine.result = 0) ∧
    (val s.build.signed s.engine.opb = 0 →
      (u.engine.result.toNat : Int) = fmod 1 (val s.build.signed s.engine.opn)) ∧
    (val s.build.signed s.engine.opa = 0 → 0 < val s.build.signed s.engine.opb → u.engine.result = 0)

/-- Whatever the host does during a run, and whenever: every schedule of transactions and engine turns
that gives the engine `bitlen(b) + 1` turns, the last one at its end, ends the run with
`RESULT = fmod(a^b, n)` for the operands sampled at acceptance, `0 <= RESULT < n`; that is 0 for `n = 1`,
`fmod(1, n)` for `b = 0` and 0 for `a = 0`, `b > 0`. Writes of operands, rejected commands and reads do not
disturb it (42_engine.md R145; 20_memory.md R58, R60; 41_commands.md R125). -/
def Obligations.RunResultUnderEveryInterleaving : Prop :=
  ∀ (s : State) (high : Nat) (sched rest : List (Event s.build.bw)),
    s.engine.phase = .idle → operandsAdmitted s.build s.engine → s.events = sched ++ rest →
    (∀ ev ∈ sched, ordinary ev = true) → sched.getLast? = some .engine →
    sched.count .engine = bitlen (val s.build.signed s.engine.opb).toNat + 1 →
    ∃ t u, exec (.cmdPowmod high) s = .next t ∧ Sys2Proof.core.run sched.length t = .next u ∧
      (u.engine.result.toNat : Int) = powModValue s.build s.engine ∧ u.engine.phase = .idle ∧
      u.engine.done = true ∧ u.events.length = rest.length ∧
      (u.engine.result.toNat : Int) < val s.build.signed s.engine.opn ∧
      (val s.build.signed s.engine.opn = 1 → u.engine.result.toNat = 0) ∧
      (val s.build.signed s.engine.opb = 0 →
        (u.engine.result.toNat : Int) = fmod 1 (val s.build.signed s.engine.opn)) ∧
      (val s.build.signed s.engine.opa = 0 → 0 < val s.build.signed s.engine.opb →
        u.engine.result.toNat = 0)

/-- The polling idiom is sound: whenever, and however often, the host reads while the run goes on, BUSY = 0
means that RESULT is the value of the run, with DONE set and no error; while BUSY = 1, RESULT is still the
previous one; and BUSY is 1 exactly for the first `bitlen(b)` engine steps
(20_memory.md R61, 70_reset_and_hazards.md R195, 42_engine.md R146). That engine slots after the FINISH only
pass is the model's choice (log 5). -/
def Obligations.PollingSeesTheResultOnceBusyIsClear : Prop :=
  ∀ (s : State) (high : Nat) (sched rest : List (Event s.build.bw)),
    s.engine.phase = .idle → operandsAdmitted s.build s.engine → s.events = sched ++ rest →
    (∀ ev ∈ sched, ev = .engine ∨ ∃ a, ev = .host (.read a)) →
    ∃ t u, exec (.cmdPowmod high) s = .next t ∧ Sys2Proof.core.run sched.length t = .next u ∧
      (busy u.engine = false → (u.engine.result.toNat : Int) = powModValue s.build s.engine ∧
        u.engine.done = true ∧ u.engine.err = false) ∧
      (busy u.engine = true → u.engine.result.toNat = s.engine.result.toNat ∧
        u.engine.done = false) ∧
      (busy u.engine = true ↔
        sched.count .engine ≤ bitlen (val s.build.signed s.engine.opb).toNat)

/-- Writing an operand register during a run and then letting the engine step gives the same state as the
other order (20_memory.md R60). -/
def Obligations.OperandWritesCommuteWithEngineSteps : Prop :=
  ∀ (w : Nat) (e : Engine w) (v : BitVec w) (k : Nat),
    engineTurn^[k] (e.setOpa v) = (engineTurn^[k] e).setOpa v ∧
    engineTurn^[k] (e.setOpb v) = (engineTurn^[k] e).setOpb v ∧
    engineTurn^[k] (e.setOpn v) = (engineTurn^[k] e).setOpn v

/-- A command rejected during a run leaves the run and its outcome alone: after any number of engine steps
the state differs from the undisturbed one in ERR and ERRCODE only (41_commands.md R125, R126). -/
def Obligations.RejectedCommandsLeaveTheRunAlone : Prop :=
  ∀ (w : Nat) (e : Engine w) (kind : ErrorKind) (k : Nat),
    engineTurn^[k] (e.raise kind) = (engineTurn^[k] e).raise kind

/-- The pseudo-instruction `powmod` of 30_encoding.md R79, with the engine running between the command and
the poll: STATUS reads DONE with no error and no BUSY, and RESULT reads `fmod(a^b, n)`. Its `wait` is one
read of STATUS: that a host loop is a number of reads is the model's reading of 30_encoding.md R80 (log 20). -/
def Obligations.PowmodPseudoInstruction : Prop :=
  ∀ (s : State) (a x n : Int) (rest : List (Event s.build.bw)), s.engine.phase = .idle →
    minv s.build ≤ a → a ≤ maxv s.build → 0 ≤ x → x ≤ maxv s.build → 0 < n → n ≤ maxv s.build →
    n - 1 ≤ guardLimit s.build →
    s.events = asmEvents s.build (asmPowmodIssue a x n) ++
      (List.replicate (bitlen x.toNat + 1) .engine ++
        (asmEvents s.build (asmWait 1 ++ [.rd .result]) ++ rest)) →
    ∃ u, Sys2Proof.core.run (4 + (bitlen x.toNat + 1) + 2) s = .next u ∧
      u.responses.map BitVec.toNat =
        (fmod (a ^ x.toNat) n).toNat :: (2 + 8 * s.engine.ie.toNat) :: s.responses.map BitVec.toNat

/-- For a prime modulus within the guard and a base it does not divide, the exponent `n - 2` gives the
inverse of the base (42_engine.md R149). -/
def Obligations.FermatInverse : Prop :=
  ∀ (b : Build) (e : Engine b.width), operandsAdmitted b e →
    Nat.Prime (val b.signed e.opn).toNat → val b.signed e.opb = val b.signed e.opn - 2 →
    ¬ val b.signed e.opn ∣ val b.signed e.opa →
    fmod (powModValue b e * val b.signed e.opa) (val b.signed e.opn) = 1

/-! ## Invariants -/

/-- Right after reset the invariant holds, in every build. -/
def Obligations.ResetMeetsTheInvariant : Prop :=
  (∀ b : Build, (State.resetOf b).Inv) ∧ State.reset.Inv

/-- Every step keeps the invariant: the error record of R26, the range of RESULT (R33), the bounds of a run
(R30), DONE = 0 during a run, and no refusal's code during a run or beside DONE. -/
def Obligations.StepKeepsTheInvariant : Prop :=
  ∀ s t : State, s.Inv → step s = .next t → t.Inv

/-- In every state that a run from reset reaches, under whatever events, ERRCODE is 0 exactly when ERR is 0
and never 6 to 15, RESULT is in `[0, NMAX - 1]` and reads the same signed and unsigned, a run in progress has
DONE = 0, and no refusal's code stands beside BUSY or DONE (10_state.md R26, R33; 60_exceptions.md R160;
70_reset_and_hazards.md R197). -/
def Obligations.ReachableStatesAreSound : Prop :=
  ∀ (b : Build) (s : State), Reachable b s → s.build = b ∧
    (s.engine.errcode = 0 ↔ s.engine.err = false) ∧ s.engine.errcode.toNat ≤ 5 ∧
    s.engine.result.toNat < nmax b ∧ val s.build.signed s.engine.result = s.engine.result.toNat ∧
    (s.engine.phase = .run → s.engine.done = false) ∧
    (s.engine.phase = .run ∨ s.engine.done = true →
      s.engine.errcode = 0 ∨ s.engine.errcode = 4 ∨ s.engine.errcode = 5)

/-! ## What may change what -/

/-- BUSY is 1 exactly while `phase = RUN`; it becomes 1 exactly when a POWMOD starts a run, and 0 exactly
at a FINISH or a reset (10_state.md R24). -/
def Obligations.BusyChangesOnlyAtStartFinishReset : Prop :=
  ∀ s t : State, step s = .next t →
    (busy s.engine = true ↔ s.engine.phase = .run) ∧
    (busy s.engine = false ∧ busy t.engine = true ↔ startsRun s) ∧
    (busy s.engine = true ∧ busy t.engine = false ↔
      finishes s ∨ (nextIsReset s ∧ s.engine.phase = .run))

/-- DONE is set only by FINISH, cleared only by an accepted POWMOD, an accepted CLEAR and reset, and left
alone by a rejected command (10_state.md R25). -/
def Obligations.DoneChangesOnlyAsSpecified : Prop :=
  ∀ s t : State, step s = .next t →
    (finishes s → t.engine.done = true) ∧
    (t.engine.done = true → s.engine.done = false → finishes s) ∧
    (acceptsPowmod s ∨ acceptsClear s ∨ nextIsReset s → t.engine.done = false) ∧
    (s.engine.done = true → t.engine.done = false → acceptsPowmod s ∨ acceptsClear s ∨ nextIsReset s) ∧
    (rejectsCommand s → t.engine.done = s.engine.done)

/-- ERR and ERRCODE change only at a rejected command, an accepted POWMOD, an accepted CLEAR or a reset; no
engine step raises an error; after a rejected command or a refused POWMOD an error is present, and after a
POWMOD that starts a run, an accepted CLEAR and a reset there is none (10_state.md R26, 60_exceptions.md
R169). -/
def Obligations.ErrorsComeOnlyFromCommands : Prop :=
  ∀ s t : State, step s = .next t →
    (t.engine.err ≠ s.engine.err ∨ t.engine.errcode ≠ s.engine.errcode →
      rejectsCommand s ∨ acceptsPowmod s ∨ acceptsClear s ∨ nextIsReset s) ∧
    (nextIsEngine s → t.engine.err = s.engine.err ∧ t.engine.errcode = s.engine.errcode) ∧
    (rejectsCommand s ∨ refusesPowmod s → t.engine.err = true ∧ t.engine.errcode ≠ 0) ∧
    (startsRun s ∨ acceptsClear s ∨ nextIsReset s → t.engine.err = false ∧ t.engine.errcode = 0)

/-- RESULT changes only at a FINISH, which writes w.acc, and at a reset (10_state.md R33). -/
def Obligations.ResultChangesOnlyAtFinishOrReset : Prop :=
  ∀ s t : State, step s = .next t →
    (finishes s → t.engine.result.toNat = s.engine.wacc.toNat) ∧
    (t.engine.result.toNat ≠ s.engine.result.toNat → finishes s ∨ nextIsReset s)

/-- The working registers are written only when a POWMOD starts a run and by engine steps, and by reset; in
particular no operand write changes them (10_state.md R29). -/
def Obligations.WorkingRegistersWrittenOnlyByTheRun : Prop :=
  ∀ s t : State, step s = .next t →
    ¬ startsRun s → ¬ (nextIsEngine s ∧ s.engine.phase = .run) → ¬ nextIsReset s →
    t.engine.wmod.toNat = s.engine.wmod.toNat ∧ t.engine.wbase.toNat = s.engine.wbase.toNat ∧
    t.engine.wexp.toNat = s.engine.wexp.toNat ∧ t.engine.wacc.toNat = s.engine.wacc.toNat

/-- The interrupt level is `IE & (DONE | ERR)`; it rises only at a FINISH, at an error, or at a write of 1 to
IE while DONE or ERR is 1; it falls only at CLEAR, at an accepted POWMOD, at a write of 0 to IE, or at reset;
after an accepted POWMOD it is 1 only when the command was refused; a read does not acknowledge it
(60_exceptions.md R171). -/
def Obligations.IrqRisesAndFallsOnlyAsSpecified : Prop :=
  ∀ s t : State, step s = .next t →
    (irq s.engine = true ↔
      s.engine.ie = true ∧ (s.engine.done = true ∨ s.engine.err = true)) ∧
    (irq s.engine = false → irq t.engine = true →
      finishes s ∨ rejectsCommand s ∨ refusesPowmod s ∨
        ∃ d, nextInstr s (.wrIe d) ∧ d % 2 = 1 ∧ (s.engine.done = true ∨ s.engine.err = true)) ∧
    (irq s.engine = true → irq t.engine = false →
      acceptsClear s ∨ startsRun s ∨ (∃ d, nextInstr s (.wrIe d) ∧ d % 2 = 0) ∨ nextIsReset s) ∧
    (acceptsPowmod s → (irq t.engine = true ↔ s.engine.ie = true ∧ refusesPowmod s)) ∧
    ((∃ a, nextInstr s (.rd a)) → irq t.engine = irq s.engine)

/-- IE, OPA, OPB and OPN change only by their own writes and by reset
(10_state.md R27, R32). -/
def Obligations.OperandsChangeOnlyByTheirWrites : Prop :=
  ∀ s t : State, step s = .next t → ¬ nextIsReset s →
    ((∀ d, ¬ nextInstr s (.wrIe d)) → t.engine.ie = s.engine.ie) ∧
    ((∀ d, ¬ nextInstr s (.wrOpa d)) → t.engine.opa.toNat = s.engine.opa.toNat) ∧
    ((∀ d, ¬ nextInstr s (.wrOpb d)) → t.engine.opb.toNat = s.engine.opb.toNat) ∧
    ((∀ d, ¬ nextInstr s (.wrOpn d)) → t.engine.opn.toNat = s.engine.opn.toNat)

/-! ## Reset -/

/-- A reset sets every piece of state to its value of 10_state.md R38, in any phase: a run in progress is
abandoned with RESULT 0, DONE 0 and no error. A transaction presented in the same cycle has no effect; a
read is answered with a value nothing constrains (70_reset_and_hazards.md R190, R191, R192). That the events
still to come and the earlier responses are kept is the model's choice (log 9). -/
def Obligations.ResetSetsEveryRegister : Prop :=
  ∀ (s : State) (p : Option (Txn s.build.bw)) (rest : List (Event s.build.bw)),
    s.events = .reset p :: rest → ∃ (e : Engine s.build.width) (rs : List (BitVec s.build.bw)) (k : Nat),
    step s = .next { build := s.build, engine := e, events := rest, responses := rs, fresh := k } ∧
    e.ie = false ∧ e.opa = 0 ∧ e.opb = 0 ∧ e.opn = 0 ∧ e.result = 0 ∧ e.done = false ∧
    e.err = false ∧ e.errcode = 0 ∧ e.phase = .idle ∧ irq e = false ∧ (statusWord e).toNat = 0 ∧
    ((∀ a, p ≠ some (.read a)) → rs = s.responses) ∧
    (∀ a, p = some (.read a) → ∃ v, rs = v :: s.responses)

/-- On one clock edge the transaction comes before the engine step, and a reset overrides both
(60_exceptions.md R168, 70_reset_and_hazards.md R192, 30_encoding.md R71). -/
def Obligations.SameEdgeOrder : Prop :=
  ∀ (s : State) (x : Txn s.build.bw) (rest : List (Event s.build.bw)),
    (s.events = cycleEvents false (some x) true ++ rest → ∃ t,
      exec (decode x) (s.withEvents (.engine :: rest)) = .next t ∧
      Sys2Proof.core.run 2 s = .next { t with
        engine := engineTurn t.engine, events := t.events.tail }) ∧
    (∀ stepEnds, s.events = cycleEvents true (some x) stepEnds ++ rest →
      step s = .next (resetState s (some x) rest))

/-! ## What the host can observe -/

/-- The working registers of an idle engine, which reset leaves unspecified, cannot be observed: two
machines that differ in nothing else give the same responses and the same interrupt level after any
number of steps, under any events (10_state.md R36, R38). -/
def Obligations.WorkingRegistersAreUnobservable : Prop :=
  ∀ (b : Build) (e f : Engine b.width) (evs : List (Event b.bw)) (rs : List (BitVec b.bw)) (n k : Nat)
    (t : State), sameVisible e f → e.phase = .idle →
    Sys2Proof.core.run k { build := b, engine := e, events := evs, responses := rs, fresh := n } = .next t →
    ∃ u, Sys2Proof.core.run k { build := b, engine := f, events := evs, responses := rs, fresh := n } = .next u ∧
      u.responses.map BitVec.toNat = t.responses.map BitVec.toNat ∧ irq u.engine = irq t.engine ∧
      statusWord u.engine = statusWord t.engine

/-! ## A cycle with reset -/

/-- Whatever is going on, a cycle with reset leaves the reset values, whether or not a transaction is presented
or an engine step ends in it: every register that 10_state.md R38 gives a value has it, ID is unaffected, the
engine has no step and irq is 0; a run in progress is abandoned with RESULT 0, DONE 0 and no error; and a read
in that cycle is answered, with a value nothing constrains (70_reset_and_hazards.md R190, R191, R192). -/
def Obligations.ResetOverridesItsCycle : Prop :=
  ∀ (s : State) (p : Option (Txn s.build.bw)) (stepEnds : Bool) (rest : List (Event s.build.bw)),
    s.events = cycleEvents true p stepEnds ++ rest → ∃ t, step s = .next t ∧
    t.engine.ie = false ∧ t.engine.opa.toNat = 0 ∧ t.engine.opb.toNat = 0 ∧ t.engine.opn.toNat = 0 ∧
    t.engine.result.toNat = 0 ∧ t.engine.done = false ∧ t.engine.err = false ∧ t.engine.errcode = 0 ∧
    t.engine.phase = .idle ∧ irq t.engine = false ∧ (statusWord t.engine).toNat = 0 ∧
    idWord t.build = idWord s.build ∧ engineTurn t.engine = t.engine ∧
    (∀ a, p = some (.read a) → ∃ v, t.responses.head? = some v)
end

