-- ==== Sys2Proof/Laws/Decode.lean ====
section
/-! SUPPORT. What the decoder and the encoder do, form by form. -/

namespace Sys2Proof

/-- An index is one of the eight the map names, or reserved (10_state.md R20). -/
theorem index_cases (a : Index) :
    a = 0 ∨ a = 1 ∨ a = 2 ∨ a = 3 ∨ a = 4 ∨ a = 5 ∨ a = 6 ∨ a = 7 ∨ 8 ≤ a.toNat := by
  revert a; decide

@[simp] theorem decode_read {bw : Nat} (a : Index) : decode (Txn.read (bw := bw) a) = .rd a := rfl

@[simp] theorem decode_write {bw : Nat} (a : Index) (d : BitVec bw) :
    decode (.write a d) = decodeWrite a d.toNat := rfl

/-- A write to a reserved index is WR.RSVD (30_encoding.md R75). -/
theorem decodeWrite_reserved {a : Index} (h : 8 ≤ a.toNat) (d : Nat) : decodeWrite a d = .wrRsvd a d := by
  unfold decodeWrite
  split <;> first | omega | rfl

/-- The four commands, by the opcode of the write (30_encoding.md R73). -/
theorem decodeCommand_cases (d : Nat) :
    (d % 16 = 0 ∧ decodeCommand d = .cmdNop (d / 16)) ∨ (d % 16 = 1 ∧ decodeCommand d = .cmdPowmod (d / 16)) ∨
      (d % 16 = 2 ∧ decodeCommand d = .cmdClear (d / 16)) ∨
      (3 ≤ d % 16 ∧ decodeCommand d = .cmdRsvd (BitVec.ofNat 4 d) (d / 16)) := by
  obtain h | h | h | h : d % 16 = 0 ∨ d % 16 = 1 ∨ d % 16 = 2 ∨ 3 ≤ d % 16 := by omega
  · exact .inl ⟨h, by simp [decodeCommand, h]⟩
  · exact .inr (.inl ⟨h, by simp [decodeCommand, h]⟩)
  · exact .inr (.inr (.inl ⟨h, by simp [decodeCommand, h]⟩))
  · refine .inr (.inr (.inr ⟨h, ?_⟩))
    unfold decodeCommand
    split <;> first | omega | rfl

/-- The decoder undoes the assembly of a command's data. -/
theorem decodeCommand_assembled (opcode high : Nat) (h : opcode < 16) :
    (16 * high + opcode) % 16 = opcode ∧ (16 * high + opcode) / 16 = high := by omega

/-- A number below `2 ^ bw` survives being placed on the bus. -/
theorem toNat_ofNat_of_fits {bw data : Nat} (h : fitsBus bw data = true) :
    (BitVec.ofNat bw data).toNat = data := by
  rw [BitVec.toNat_ofNat, Nat.mod_eq_of_lt (by simpa [fitsBus] using h)]

/-- A command's data fits the bus when its ignored part does. -/
theorem command_fits {bw opcode high : Nat} (hbw : 4 ≤ bw) (ho : opcode < 16)
    (hh : fitsHigh bw high = true) : 16 * high + opcode < 2 ^ bw := by
  have h1 : high < 2 ^ (bw - 4) := by simpa [fitsHigh] using hh
  have h2 : 2 ^ bw = 16 * 2 ^ (bw - 4) := by
    rw [show (16 : Nat) = 2 ^ 4 from rfl, ← Nat.pow_add]; congr 1; omega
  omega

/-- The command of a write to CMD with assembled data. -/
theorem decode_encodeCommand {bw opcode high : Nat} (hbw : 4 ≤ bw) (ho : opcode < 16)
    (hh : fitsHigh bw high = true) :
    decode (encodeCommand bw opcode high) = decodeCommand (16 * high + opcode) := by
  unfold encodeCommand
  rw [decode_write, BitVec.toNat_ofNat, Nat.mod_eq_of_lt (command_fits hbw ho hh)]
  rfl

theorem bw_ge_four (b : Build) : 4 ≤ b.bw :=
  Nat.le_trans (by decide) (Nat.le_max_right b.width 32)

end Sys2Proof
end

