-- ==== Sys2Proof/Laws/State.lean ====
section
/-! SUPPORT. One lemma for each field and each named update of the state, true by definition, so that no
proof unfolds a record update. -/

namespace Sys2Proof.Machine

section Engine
variable {w : Nat} (e : Engine w)

/-! ### `Engine.setIe` -/

@[simp] theorem setIe_ie (v : Bool) : (e.setIe v).ie = v := rfl
@[simp] theorem setIe_opa (v : Bool) : (e.setIe v).opa = e.opa := rfl
@[simp] theorem setIe_opb (v : Bool) : (e.setIe v).opb = e.opb := rfl
@[simp] theorem setIe_opn (v : Bool) : (e.setIe v).opn = e.opn := rfl
@[simp] theorem setIe_result (v : Bool) : (e.setIe v).result = e.result := rfl
@[simp] theorem setIe_done (v : Bool) : (e.setIe v).done = e.done := rfl
@[simp] theorem setIe_err (v : Bool) : (e.setIe v).err = e.err := rfl
@[simp] theorem setIe_errcode (v : Bool) : (e.setIe v).errcode = e.errcode := rfl
@[simp] theorem setIe_phase (v : Bool) : (e.setIe v).phase = e.phase := rfl
@[simp] theorem setIe_wbase (v : Bool) : (e.setIe v).wbase = e.wbase := rfl
@[simp] theorem setIe_wexp (v : Bool) : (e.setIe v).wexp = e.wexp := rfl
@[simp] theorem setIe_wmod (v : Bool) : (e.setIe v).wmod = e.wmod := rfl
@[simp] theorem setIe_wacc (v : Bool) : (e.setIe v).wacc = e.wacc := rfl

/-! ### `Engine.setOpa` -/

@[simp] theorem setOpa_ie (v : BitVec w) : (e.setOpa v).ie = e.ie := rfl
@[simp] theorem setOpa_opa (v : BitVec w) : (e.setOpa v).opa = v := rfl
@[simp] theorem setOpa_opb (v : BitVec w) : (e.setOpa v).opb = e.opb := rfl
@[simp] theorem setOpa_opn (v : BitVec w) : (e.setOpa v).opn = e.opn := rfl
@[simp] theorem setOpa_result (v : BitVec w) : (e.setOpa v).result = e.result := rfl
@[simp] theorem setOpa_done (v : BitVec w) : (e.setOpa v).done = e.done := rfl
@[simp] theorem setOpa_err (v : BitVec w) : (e.setOpa v).err = e.err := rfl
@[simp] theorem setOpa_errcode (v : BitVec w) : (e.setOpa v).errcode = e.errcode := rfl
@[simp] theorem setOpa_phase (v : BitVec w) : (e.setOpa v).phase = e.phase := rfl
@[simp] theorem setOpa_wbase (v : BitVec w) : (e.setOpa v).wbase = e.wbase := rfl
@[simp] theorem setOpa_wexp (v : BitVec w) : (e.setOpa v).wexp = e.wexp := rfl
@[simp] theorem setOpa_wmod (v : BitVec w) : (e.setOpa v).wmod = e.wmod := rfl
@[simp] theorem setOpa_wacc (v : BitVec w) : (e.setOpa v).wacc = e.wacc := rfl

/-! ### `Engine.setOpb` -/

@[simp] theorem setOpb_ie (v : BitVec w) : (e.setOpb v).ie = e.ie := rfl
@[simp] theorem setOpb_opa (v : BitVec w) : (e.setOpb v).opa = e.opa := rfl
@[simp] theorem setOpb_opb (v : BitVec w) : (e.setOpb v).opb = v := rfl
@[simp] theorem setOpb_opn (v : BitVec w) : (e.setOpb v).opn = e.opn := rfl
@[simp] theorem setOpb_result (v : BitVec w) : (e.setOpb v).result = e.result := rfl
@[simp] theorem setOpb_done (v : BitVec w) : (e.setOpb v).done = e.done := rfl
@[simp] theorem setOpb_err (v : BitVec w) : (e.setOpb v).err = e.err := rfl
@[simp] theorem setOpb_errcode (v : BitVec w) : (e.setOpb v).errcode = e.errcode := rfl
@[simp] theorem setOpb_phase (v : BitVec w) : (e.setOpb v).phase = e.phase := rfl
@[simp] theorem setOpb_wbase (v : BitVec w) : (e.setOpb v).wbase = e.wbase := rfl
@[simp] theorem setOpb_wexp (v : BitVec w) : (e.setOpb v).wexp = e.wexp := rfl
@[simp] theorem setOpb_wmod (v : BitVec w) : (e.setOpb v).wmod = e.wmod := rfl
@[simp] theorem setOpb_wacc (v : BitVec w) : (e.setOpb v).wacc = e.wacc := rfl

/-! ### `Engine.setOpn` -/

@[simp] theorem setOpn_ie (v : BitVec w) : (e.setOpn v).ie = e.ie := rfl
@[simp] theorem setOpn_opa (v : BitVec w) : (e.setOpn v).opa = e.opa := rfl
@[simp] theorem setOpn_opb (v : BitVec w) : (e.setOpn v).opb = e.opb := rfl
@[simp] theorem setOpn_opn (v : BitVec w) : (e.setOpn v).opn = v := rfl
@[simp] theorem setOpn_result (v : BitVec w) : (e.setOpn v).result = e.result := rfl
@[simp] theorem setOpn_done (v : BitVec w) : (e.setOpn v).done = e.done := rfl
@[simp] theorem setOpn_err (v : BitVec w) : (e.setOpn v).err = e.err := rfl
@[simp] theorem setOpn_errcode (v : BitVec w) : (e.setOpn v).errcode = e.errcode := rfl
@[simp] theorem setOpn_phase (v : BitVec w) : (e.setOpn v).phase = e.phase := rfl
@[simp] theorem setOpn_wbase (v : BitVec w) : (e.setOpn v).wbase = e.wbase := rfl
@[simp] theorem setOpn_wexp (v : BitVec w) : (e.setOpn v).wexp = e.wexp := rfl
@[simp] theorem setOpn_wmod (v : BitVec w) : (e.setOpn v).wmod = e.wmod := rfl
@[simp] theorem setOpn_wacc (v : BitVec w) : (e.setOpn v).wacc = e.wacc := rfl

/-! ### `Engine.raise` -/

@[simp] theorem raise_ie (k : ErrorKind) : (e.raise k).ie = e.ie := rfl
@[simp] theorem raise_opa (k : ErrorKind) : (e.raise k).opa = e.opa := rfl
@[simp] theorem raise_opb (k : ErrorKind) : (e.raise k).opb = e.opb := rfl
@[simp] theorem raise_opn (k : ErrorKind) : (e.raise k).opn = e.opn := rfl
@[simp] theorem raise_result (k : ErrorKind) : (e.raise k).result = e.result := rfl
@[simp] theorem raise_done (k : ErrorKind) : (e.raise k).done = e.done := rfl
@[simp] theorem raise_err (k : ErrorKind) : (e.raise k).err = true := rfl
@[simp] theorem raise_errcode (k : ErrorKind) : (e.raise k).errcode = errorCode k := rfl
@[simp] theorem raise_phase (k : ErrorKind) : (e.raise k).phase = e.phase := rfl
@[simp] theorem raise_wbase (k : ErrorKind) : (e.raise k).wbase = e.wbase := rfl
@[simp] theorem raise_wexp (k : ErrorKind) : (e.raise k).wexp = e.wexp := rfl
@[simp] theorem raise_wmod (k : ErrorKind) : (e.raise k).wmod = e.wmod := rfl
@[simp] theorem raise_wacc (k : ErrorKind) : (e.raise k).wacc = e.wacc := rfl

/-! ### `Engine.clearStatus` -/

@[simp] theorem clearStatus_ie : (e.clearStatus).ie = e.ie := rfl
@[simp] theorem clearStatus_opa : (e.clearStatus).opa = e.opa := rfl
@[simp] theorem clearStatus_opb : (e.clearStatus).opb = e.opb := rfl
@[simp] theorem clearStatus_opn : (e.clearStatus).opn = e.opn := rfl
@[simp] theorem clearStatus_result : (e.clearStatus).result = e.result := rfl
@[simp] theorem clearStatus_done : (e.clearStatus).done = false := rfl
@[simp] theorem clearStatus_err : (e.clearStatus).err = false := rfl
@[simp] theorem clearStatus_errcode : (e.clearStatus).errcode = 0 := rfl
@[simp] theorem clearStatus_phase : (e.clearStatus).phase = e.phase := rfl
@[simp] theorem clearStatus_wbase : (e.clearStatus).wbase = e.wbase := rfl
@[simp] theorem clearStatus_wexp : (e.clearStatus).wexp = e.wexp := rfl
@[simp] theorem clearStatus_wmod : (e.clearStatus).wmod = e.wmod := rfl
@[simp] theorem clearStatus_wacc : (e.clearStatus).wacc = e.wacc := rfl

/-! ### `Engine.startRun` -/

@[simp] theorem startRun_ie (a b n : Int) : (e.startRun a b n).ie = e.ie := rfl
@[simp] theorem startRun_opa (a b n : Int) : (e.startRun a b n).opa = e.opa := rfl
@[simp] theorem startRun_opb (a b n : Int) : (e.startRun a b n).opb = e.opb := rfl
@[simp] theorem startRun_opn (a b n : Int) : (e.startRun a b n).opn = e.opn := rfl
@[simp] theorem startRun_result (a b n : Int) : (e.startRun a b n).result = e.result := rfl
@[simp] theorem startRun_done (a b n : Int) : (e.startRun a b n).done = e.done := rfl
@[simp] theorem startRun_err (a b n : Int) : (e.startRun a b n).err = e.err := rfl
@[simp] theorem startRun_errcode (a b n : Int) : (e.startRun a b n).errcode = e.errcode := rfl
@[simp] theorem startRun_phase (a b n : Int) : (e.startRun a b n).phase = .run := rfl
@[simp] theorem startRun_wbase (a b n : Int) : (e.startRun a b n).wbase = pat w (fmod a n) := rfl
@[simp] theorem startRun_wexp (a b n : Int) : (e.startRun a b n).wexp = pat w b := rfl
@[simp] theorem startRun_wmod (a b n : Int) : (e.startRun a b n).wmod = pat w n := rfl
@[simp] theorem startRun_wacc (a b n : Int) : (e.startRun a b n).wacc = pat w (fmod 1 n) := rfl

/-! ### `Engine.finish` -/

@[simp] theorem finish_ie : (e.finish).ie = e.ie := rfl
@[simp] theorem finish_opa : (e.finish).opa = e.opa := rfl
@[simp] theorem finish_opb : (e.finish).opb = e.opb := rfl
@[simp] theorem finish_opn : (e.finish).opn = e.opn := rfl
@[simp] theorem finish_result : (e.finish).result = e.wacc := rfl
@[simp] theorem finish_done : (e.finish).done = true := rfl
@[simp] theorem finish_err : (e.finish).err = e.err := rfl
@[simp] theorem finish_errcode : (e.finish).errcode = e.errcode := rfl
@[simp] theorem finish_phase : (e.finish).phase = .idle := rfl
@[simp] theorem finish_wbase : (e.finish).wbase = e.wbase := rfl
@[simp] theorem finish_wexp : (e.finish).wexp = e.wexp := rfl
@[simp] theorem finish_wmod : (e.finish).wmod = e.wmod := rfl
@[simp] theorem finish_wacc : (e.finish).wacc = e.wacc := rfl

/-! ### `Engine.mulsq` -/

@[simp] theorem mulsq_ie : (e.mulsq).ie = e.ie := rfl
@[simp] theorem mulsq_opa : (e.mulsq).opa = e.opa := rfl
@[simp] theorem mulsq_opb : (e.mulsq).opb = e.opb := rfl
@[simp] theorem mulsq_opn : (e.mulsq).opn = e.opn := rfl
@[simp] theorem mulsq_result : (e.mulsq).result = e.result := rfl
@[simp] theorem mulsq_done : (e.mulsq).done = e.done := rfl
@[simp] theorem mulsq_err : (e.mulsq).err = e.err := rfl
@[simp] theorem mulsq_errcode : (e.mulsq).errcode = e.errcode := rfl
@[simp] theorem mulsq_phase : (e.mulsq).phase = e.phase := rfl
@[simp] theorem mulsq_wbase : (e.mulsq).wbase = squaredBase e := rfl
@[simp] theorem mulsq_wexp : (e.mulsq).wexp = e.wexp >>> 1 := rfl
@[simp] theorem mulsq_wmod : (e.mulsq).wmod = e.wmod := rfl
@[simp] theorem mulsq_wacc : (e.mulsq).wacc = multipliedAcc e := rfl

/-! ### `Engine.sq` -/

@[simp] theorem sq_ie : (e.sq).ie = e.ie := rfl
@[simp] theorem sq_opa : (e.sq).opa = e.opa := rfl
@[simp] theorem sq_opb : (e.sq).opb = e.opb := rfl
@[simp] theorem sq_opn : (e.sq).opn = e.opn := rfl
@[simp] theorem sq_result : (e.sq).result = e.result := rfl
@[simp] theorem sq_done : (e.sq).done = e.done := rfl
@[simp] theorem sq_err : (e.sq).err = e.err := rfl
@[simp] theorem sq_errcode : (e.sq).errcode = e.errcode := rfl
@[simp] theorem sq_phase : (e.sq).phase = e.phase := rfl
@[simp] theorem sq_wbase : (e.sq).wbase = squaredBase e := rfl
@[simp] theorem sq_wexp : (e.sq).wexp = e.wexp >>> 1 := rfl
@[simp] theorem sq_wmod : (e.sq).wmod = e.wmod := rfl
@[simp] theorem sq_wacc : (e.sq).wacc = e.wacc := rfl

/-! ### `Engine.afterReset` -/

@[simp] theorem afterReset_ie (wb wx wm wa : BitVec w) :
    (Engine.afterReset wb wx wm wa).ie = false := rfl
@[simp] theorem afterReset_opa (wb wx wm wa : BitVec w) :
    (Engine.afterReset wb wx wm wa).opa = 0 := rfl
@[simp] theorem afterReset_opb (wb wx wm wa : BitVec w) :
    (Engine.afterReset wb wx wm wa).opb = 0 := rfl
@[simp] theorem afterReset_opn (wb wx wm wa : BitVec w) :
    (Engine.afterReset wb wx wm wa).opn = 0 := rfl
@[simp] theorem afterReset_result (wb wx wm wa : BitVec w) :
    (Engine.afterReset wb wx wm wa).result = 0 := rfl
@[simp] theorem afterReset_done (wb wx wm wa : BitVec w) :
    (Engine.afterReset wb wx wm wa).done = false := rfl
@[simp] theorem afterReset_err (wb wx wm wa : BitVec w) :
    (Engine.afterReset wb wx wm wa).err = false := rfl
@[simp] theorem afterReset_errcode (wb wx wm wa : BitVec w) :
    (Engine.afterReset wb wx wm wa).errcode = 0 := rfl
@[simp] theorem afterReset_phase (wb wx wm wa : BitVec w) :
    (Engine.afterReset wb wx wm wa).phase = .idle := rfl
@[simp] theorem afterReset_wbase (wb wx wm wa : BitVec w) :
    (Engine.afterReset wb wx wm wa).wbase = wb := rfl
@[simp] theorem afterReset_wexp (wb wx wm wa : BitVec w) :
    (Engine.afterReset wb wx wm wa).wexp = wx := rfl
@[simp] theorem afterReset_wmod (wb wx wm wa : BitVec w) :
    (Engine.afterReset wb wx wm wa).wmod = wm := rfl
@[simp] theorem afterReset_wacc (wb wx wm wa : BitVec w) :
    (Engine.afterReset wb wx wm wa).wacc = wa := rfl

end Engine

section State
variable (s : State)

/-! ### `State.withEngine` -/

@[simp] theorem withEngine_build (e : Engine s.build.width) : (s.withEngine e).build = s.build := rfl
@[simp] theorem withEngine_engine (e : Engine s.build.width) : (s.withEngine e).engine = e := rfl
@[simp] theorem withEngine_events (e : Engine s.build.width) : (s.withEngine e).events = s.events := rfl
@[simp] theorem withEngine_responses (e : Engine s.build.width) : (s.withEngine e).responses = s.responses := rfl
@[simp] theorem withEngine_fresh (e : Engine s.build.width) : (s.withEngine e).fresh = s.fresh := rfl

/-! ### `State.withEvents` -/

@[simp] theorem withEvents_build (evs : List (Event s.build.bw)) : (s.withEvents evs).build = s.build := rfl
@[simp] theorem withEvents_engine (evs : List (Event s.build.bw)) : (s.withEvents evs).engine = s.engine := rfl
@[simp] theorem withEvents_events (evs : List (Event s.build.bw)) : (s.withEvents evs).events = evs := rfl
@[simp] theorem withEvents_responses (evs : List (Event s.build.bw)) : (s.withEvents evs).responses = s.responses := rfl
@[simp] theorem withEvents_fresh (evs : List (Event s.build.bw)) : (s.withEvents evs).fresh = s.fresh := rfl

/-! ### `State.respond` -/

@[simp] theorem respond_build (r : BitVec s.build.bw) : (s.respond r).build = s.build := rfl
@[simp] theorem respond_engine (r : BitVec s.build.bw) : (s.respond r).engine = s.engine := rfl
@[simp] theorem respond_events (r : BitVec s.build.bw) : (s.respond r).events = s.events := rfl
@[simp] theorem respond_responses (r : BitVec s.build.bw) : (s.respond r).responses = r :: s.responses := rfl
@[simp] theorem respond_fresh (r : BitVec s.build.bw) : (s.respond r).fresh = s.fresh := rfl

/-! ### `resetState` -/

@[simp] theorem resetState_build (p : Option (Txn s.build.bw)) (rest : List (Event s.build.bw)) :
    (resetState s p rest).build = s.build := rfl
@[simp] theorem resetState_engine (p : Option (Txn s.build.bw)) (rest : List (Event s.build.bw)) :
    (resetState s p rest).engine = freshlyReset s.build.width s.fresh := rfl
@[simp] theorem resetState_events (p : Option (Txn s.build.bw)) (rest : List (Event s.build.bw)) :
    (resetState s p rest).events = rest := rfl
@[simp] theorem resetState_responses (p : Option (Txn s.build.bw)) (rest : List (Event s.build.bw)) :
    (resetState s p rest).responses = resetResponses s.fresh s.responses p := rfl
@[simp] theorem resetState_fresh (p : Option (Txn s.build.bw)) (rest : List (Event s.build.bw)) :
    (resetState s p rest).fresh = s.fresh + 5 := rfl

end State

end Sys2Proof.Machine
end

