-- ==== Sys2Proof/Laws/Operands.lean ====
section
/-! SUPPORT. What the integer primitives, the derived constants and the pattern readings compute. -/

namespace Sys2Proof.Machine

/-! ## fmod -/

theorem fmod_eq_emod {m : Int} (h : 0 < m) (x : Int) : fmod x m = x % m := by
  unfold fmod; exact Int.fmod_eq_emod_of_nonneg x (Int.le_of_lt h)

theorem fmod_nonneg {m : Int} (h : 0 < m) (x : Int) : 0 ≤ fmod x m := by
  rw [fmod_eq_emod h]; exact Int.emod_nonneg x (by omega)

theorem fmod_lt {m : Int} (h : 0 < m) (x : Int) : fmod x m < m := by
  rw [fmod_eq_emod h]; exact Int.emod_lt_of_pos x h

/-- The remainder of a product depends on the remainders of its factors only. -/
theorem fmod_mul_congr {m : Int} (h : 0 < m) {x y x' y' : Int} (hx : fmod x m = fmod x' m)
    (hy : fmod y m = fmod y' m) : fmod (x * y) m = fmod (x' * y') m := by
  simp only [fmod_eq_emod h] at *
  exact Int.ModEq.mul hx hy

/-- The remainder of a power depends on the remainder of its base only. -/
theorem fmod_pow {m : Int} (h : 0 < m) (x : Int) (k : Nat) : fmod (fmod x m ^ k) m = fmod (x ^ k) m := by
  simp only [fmod_eq_emod h]
  exact (Int.mod_modEq x m).pow k

/-! ## bitlen and isqrt -/

theorem lt_two_pow_bitlen (x : Nat) : x < 2 ^ bitlen x := by
  unfold bitlen
  split
  · next h => simp [h]
  · exact Nat.lt_log2_self

theorem bitlen_zero : bitlen 0 = 0 := rfl

theorem bitlen_pos {x : Nat} (h : x ≠ 0) : bitlen x = bitlen (x / 2) + 1 := by
  unfold bitlen
  rw [if_neg h]
  split
  · have hx : x = 1 := by omega
    subst hx; decide
  · rw [Nat.log2_def, if_pos (by omega)]

/-- The greedy search keeps `r * r ≤ x < (r + 2 ^ k) ^ 2` down to `k = 0`. -/
theorem isqrtFrom_spec (x k r : Nat) (hlo : r * r ≤ x) (hhi : x < (r + 2 ^ k) * (r + 2 ^ k)) :
    isqrtFrom x k r * isqrtFrom x k r ≤ x ∧ x < (isqrtFrom x k r + 1) * (isqrtFrom x k r + 1) := by
  induction k generalizing r with
  | zero => exact ⟨hlo, by simpa [isqrtFrom] using hhi⟩
  | succ k ih =>
    unfold isqrtFrom
    split
    · next h => exact ih _ h (by rw [Nat.add_assoc, ← Nat.two_mul, ← Nat.pow_succ']; exact hhi)
    · next h => exact ih _ hlo (by omega)

theorem isqrt_spec (x : Nat) : isqrt x * isqrt x ≤ x ∧ x < (isqrt x + 1) * (isqrt x + 1) := by
  have hx := lt_two_pow_bitlen x
  have h1 : 1 ≤ 2 ^ bitlen x := Nat.one_le_two_pow
  exact isqrtFrom_spec x _ 0 (by omega) (by rw [Nat.zero_add]; nlinarith)

/-! ## Derived constants -/

theorem guard_mul_guard_le_maxv (b : Build) : guardLimit b * guardLimit b ≤ maxv b := (isqrt_spec _).1

theorem maxv_lt_succ_guard_sq (b : Build) : maxv b < (guardLimit b + 1) * (guardLimit b + 1) := (isqrt_spec _).2

theorem width_pred_succ (b : Build) : 2 ^ b.width = 2 * 2 ^ (b.width - 1) := by
  have := b.two_le_width
  rw [← Nat.pow_succ']; congr 1; omega

theorem two_le_half (b : Build) : 2 ≤ 2 ^ (b.width - 1) := by
  have := b.two_le_width
  calc 2 = 2 ^ 1 := rfl
    _ ≤ 2 ^ (b.width - 1) := Nat.pow_le_pow_right (by omega) (by omega)

theorem maxv_lt_two_pow (b : Build) : maxv b < 2 ^ b.width := by
  have h1 := width_pred_succ b
  have h2 := two_le_half b
  unfold maxv; split <;> omega

theorem one_le_maxv (b : Build) : 1 ≤ maxv b := by
  have h1 := width_pred_succ b
  have h2 := two_le_half b
  unfold maxv; split <;> omega

theorem one_le_guard (b : Build) : 1 ≤ guardLimit b := by
  have h1 := one_le_maxv b
  have h2 := maxv_lt_succ_guard_sq b
  by_contra h
  have : guardLimit b = 0 := by omega
  rw [this] at h2; omega

theorem guard_le_maxv (b : Build) : guardLimit b ≤ maxv b := by
  have h1 := one_le_guard b
  have h2 := guard_mul_guard_le_maxv b
  nlinarith

/-! ## Patterns -/

theorem val_unsigned {w : Nat} (r : BitVec w) : val false r = r.toNat := rfl

theorem val_eq_toNat {w : Nat} {sg : Bool} {r : BitVec w} (h : 0 ≤ val sg r) : val sg r = r.toNat := by
  have hr := r.isLt
  unfold val at h ⊢
  split at h
  · have : (r.toNat : Int) < 2 ^ w := by exact_mod_cast hr
    omega
  · next hc => rw [if_neg hc]

theorem minv_le_val (b : Build) (r : BitVec b.width) : minv b ≤ val b.signed r := by
  unfold minv val
  cases hs : b.signed with
  | false => simp
  | true =>
    have hw := width_pred_succ b
    have hw' : (2 : Int) ^ b.width = 2 * 2 ^ (b.width - 1) := by exact_mod_cast hw
    have hp : (0 : Int) < 2 ^ (b.width - 1) := by positivity
    cases hm : r.msb with
    | false => simp; omega
    | true =>
      have := BitVec.msb_eq_decide r
      rw [hm] at this
      have hge : 2 ^ (b.width - 1) ≤ r.toNat := by simpa using this.symm
      have hge' : (2 : Int) ^ (b.width - 1) ≤ r.toNat := by exact_mod_cast hge
      simp only [Bool.and_true, ite_true]
      linarith

theorem val_le_maxv (b : Build) (r : BitVec b.width) : val b.signed r ≤ maxv b := by
  have hr := r.isLt
  have hw := width_pred_succ b
  have h2 := two_le_half b
  unfold maxv val
  cases hs : b.signed with
  | false =>
    simp only [Bool.false_and, Bool.false_eq_true, ite_false]
    omega
  | true =>
    cases hm : r.msb with
    | true =>
      have hr' : (r.toNat : Int) < 2 ^ b.width := by exact_mod_cast hr
      have h0 : (0 : Int) ≤ ((2 ^ (b.width - 1) - 1 : Nat) : Int) := by positivity
      simp only [Bool.and_true, ite_true]
      linarith
    | false =>
      have := BitVec.msb_eq_decide r
      rw [hm] at this
      have hlt : r.toNat < 2 ^ (b.width - 1) := by simpa using this.symm
      simp only [Bool.and_false, Bool.false_eq_true, ite_false, ite_true]
      omega

theorem pat_toNat {w : Nat} {v : Int} (h0 : 0 ≤ v) (h1 : v < 2 ^ w) : (pat w v).toNat = v.toNat := by
  unfold pat
  rw [Int.emod_eq_of_lt h0 h1, BitVec.toNat_ofNat, Nat.mod_eq_of_lt]
  have : (2 : Int) ^ w = ((2 ^ w : Nat) : Int) := by push_cast; rfl
  omega

theorem pat_val {w : Nat} (sg : Bool) (r : BitVec w) : pat w (val sg r) = r := by
  have hr := r.isLt
  have hr' : (r.toNat : Int) < 2 ^ w := by exact_mod_cast hr
  have key : val sg r % 2 ^ w = r.toNat := by
    unfold val
    split
    · rw [Int.sub_emod_right]; exact Int.emod_eq_of_lt (by positivity) hr'
    · exact Int.emod_eq_of_lt (by positivity) hr'
  apply BitVec.eq_of_toNat_eq
  unfold pat
  rw [key, BitVec.toNat_ofNat, Int.toNat_natCast, Nat.mod_eq_of_lt hr]

/-! ## Assembly and reduction -/

theorem keepOperand_toNat (w data : Nat) : (keepOperand w data).toNat = data % 2 ^ w := rfl

theorem keepIe_eq (data : Nat) : keepIe data = decide (data % 2 = 1) := by
  unfold keepIe; rw [Nat.testBit_zero]

theorem zext_toNat {bw w : Nat} (h : w ≤ bw) (v : BitVec w) : (zext bw v).toNat = v.toNat := by
  unfold zext
  rw [BitVec.toNat_setWidth, Nat.mod_eq_of_lt]
  exact Nat.lt_of_lt_of_le v.isLt (Nat.pow_le_pow_right (by omega) h)

theorem width_le_bw (b : Build) : b.width ≤ b.bw := Nat.le_max_left _ _

theorem thirtyTwo_le_bw (b : Build) : 32 ≤ b.bw := Nat.le_max_right _ _

theorem reduce_of_pos {m : Nat} (h : 0 < m) (x : Nat) : reduce x m = x % m := by
  unfold reduce; rw [if_neg (by omega)]

end Sys2Proof.Machine
end

