-- ==== Sys2Proof/Laws/Ops.lean ====
section
/-! SUPPORT. What the shared operations and the instructions can do, said once. -/

namespace Sys2Proof.Machine

/-! ## Reading -/

theorem statusWord_toNat {w : Nat} (e : Engine w) :
    (statusWord e).toNat = (busy e).toNat + 2 * e.done.toNat + 4 * e.err.toNat + 8 * (irq e).toNat
      + 16 * e.errcode.toNat := by
  have h := e.errcode.isLt
  unfold statusWord
  simp only [BitVec.toNat_append, BitVec.toNat_ofBool, Nat.shiftLeft_eq]
  rw [← Nat.shiftLeft_eq, ← Nat.shiftLeft_add_eq_or_of_lt (Bool.toNat_lt _),
    ← Nat.shiftLeft_eq, ← Nat.shiftLeft_add_eq_or_of_lt (Bool.toNat_lt _),
    ← Nat.shiftLeft_eq, ← Nat.shiftLeft_add_eq_or_of_lt (Bool.toNat_lt _),
    ← Nat.shiftLeft_eq, ← Nat.shiftLeft_add_eq_or_of_lt (Bool.toNat_lt _)]
  simp only [Nat.shiftLeft_eq]
  omega

theorem idWord_toNat (b : Build) : (idWord b).toNat = b.width + 2 ^ 16 * b.signed.toNat + 2 ^ 24 := by
  have h := b.width_le
  unfold idWord
  simp only [BitVec.toNat_append, BitVec.toNat_ofBool, BitVec.toNat_ofNat]
  rw [Nat.mod_eq_of_lt (show b.width < 2 ^ 16 by omega),
    ← Nat.shiftLeft_add_eq_or_of_lt (show b.width < 2 ^ 16 by omega)]
  cases b.signed <;> simp [Nat.shiftLeft_eq] <;> omega

theorem readReg_reserved (b : Build) (e : Engine b.width) {a : Index} (h : 8 ≤ a.toNat) :
    readReg b e a = 0 := by
  unfold readReg
  split <;> first | omega | rfl

/-! ## Commands -/

theorem whenIdle_run {w : Nat} {e f : Engine w} (h : e.phase = .run) : whenIdle e f = e.raise .busy := by
  unfold whenIdle; rw [h]

theorem whenIdle_idle {w : Nat} {e f : Engine w} (h : e.phase = .idle) : whenIdle e f = f := by
  unfold whenIdle; rw [h]

/-- What an accepted CMD.POWMOD can do (41_commands.md R122): one refusal, or a start. -/
theorem acceptPowmod_cases (b : Build) (e : Engine b.width) :
    (val b.signed e.opn - 1 > guardLimit b ∧ acceptPowmod b e = e.clearStatus.raise .overflow) ∨
    (val b.signed e.opn ≤ 0 ∧ acceptPowmod b e = e.clearStatus.raise .domainModulus) ∨
    (val b.signed e.opn - 1 ≤ guardLimit b ∧ 0 < val b.signed e.opn ∧ val b.signed e.opb < 0 ∧
      acceptPowmod b e = e.clearStatus.raise .domainExponent) ∨
    (operandsAdmitted b e ∧ acceptPowmod b e = e.clearStatus.startRun (val b.signed e.opa)
      (val b.signed e.opb) (val b.signed e.opn)) := by
  unfold acceptPowmod
  simp only []
  split
  · next h => exact .inl ⟨h, rfl⟩
  · next h1 =>
    split
    · next h => exact .inr (.inl ⟨h, rfl⟩)
    · next h2 =>
      split
      · next h => exact .inr (.inr (.inl ⟨by omega, by omega, h, rfl⟩))
      · next h3 => exact .inr (.inr (.inr ⟨⟨by omega, by omega, by omega⟩, rfl⟩))

theorem acceptPowmod_overflow {b : Build} {e : Engine b.width} (h : val b.signed e.opn - 1 > guardLimit b) :
    acceptPowmod b e = e.clearStatus.raise .overflow := by
  unfold acceptPowmod; simp only []; rw [if_pos h]

theorem acceptPowmod_modulus {b : Build} {e : Engine b.width} (h : val b.signed e.opn ≤ 0) :
    acceptPowmod b e = e.clearStatus.raise .domainModulus := by
  unfold acceptPowmod; simp only []; rw [if_neg (by omega), if_pos h]

theorem acceptPowmod_exponent {b : Build} {e : Engine b.width} (h1 : val b.signed e.opn - 1 ≤ guardLimit b)
    (h2 : 0 < val b.signed e.opn) (h3 : val b.signed e.opb < 0) :
    acceptPowmod b e = e.clearStatus.raise .domainExponent := by
  unfold acceptPowmod; simp only []; rw [if_neg (by omega), if_neg (by omega), if_pos h3]

theorem acceptPowmod_starts {b : Build} {e : Engine b.width} (h : operandsAdmitted b e) :
    acceptPowmod b e = e.clearStatus.startRun (val b.signed e.opa) (val b.signed e.opb)
      (val b.signed e.opn) := by
  obtain ⟨h1, h2, h3⟩ := h
  unfold acceptPowmod; simp only []; rw [if_neg (by omega), if_neg (by omega), if_neg (by omega)]

/-! ## The effect of an instruction on the engine record -/

/-- The engine record after an instruction. -/
def effect (b : Build) (i : Instr) (e : Engine b.width) : Engine b.width :=
  match i with
  | .rd _ => e
  | .wrId _ => e
  | .cmdNop _ => e
  | .cmdPowmod _ => whenIdle e (acceptPowmod b e)
  | .cmdClear _ => whenIdle e e.clearStatus
  | .cmdRsvd _ _ => e.raise .illegalCmd
  | .wrStatus _ => e
  | .wrIe d => e.setIe (keepIe d)
  | .wrOpa d => e.setOpa (keepOperand b.width d)
  | .wrOpb d => e.setOpb (keepOperand b.width d)
  | .wrOpn d => e.setOpn (keepOperand b.width d)
  | .wrResult _ => e
  | .wrRsvd _ _ => e

/-- An accepted CMD.POWMOD whose operands are not admitted is refused: the status is cleared and one error
is raised. -/
theorem acceptPowmod_refuses {b : Build} {e : Engine b.width} (h : ¬ operandsAdmitted b e) :
    ∃ k, acceptPowmod b e = e.clearStatus.raise k := by
  rcases acceptPowmod_cases b e with ⟨_, h'⟩ | ⟨_, h'⟩ | ⟨_, _, _, h'⟩ | ⟨ha, _⟩
  · exact ⟨_, h'⟩
  · exact ⟨_, h'⟩
  · exact ⟨_, h'⟩
  · exact absurd ha h

/-- What an instruction can do to the engine record. -/
theorem effect_cases (b : Build) (i : Instr) (e : Engine b.width) :
    ((∃ high, i = .cmdPowmod high) ∧ e.phase = .idle ∧ operandsAdmitted b e ∧
      effect b i e = e.clearStatus.startRun (val b.signed e.opa) (val b.signed e.opb) (val b.signed e.opn)) ∨
    ((∃ high, i = .cmdPowmod high) ∧ e.phase = .idle ∧ ¬ operandsAdmitted b e ∧
      ∃ k, effect b i e = e.clearStatus.raise k) ∨
    ((∃ high, i = .cmdPowmod high ∨ i = .cmdClear high) ∧ e.phase = .run ∧ effect b i e = e.raise .busy) ∨
    ((∃ high, i = .cmdClear high) ∧ e.phase = .idle ∧ effect b i e = e.clearStatus) ∨
    ((∃ opcode high, i = .cmdRsvd opcode high) ∧ effect b i e = e.raise .illegalCmd) ∨
    (∃ d, i = .wrIe d ∧ effect b i e = e.setIe (keepIe d)) ∨
    (∃ d, i = .wrOpa d ∧ effect b i e = e.setOpa (keepOperand b.width d)) ∨
    (∃ d, i = .wrOpb d ∧ effect b i e = e.setOpb (keepOperand b.width d)) ∨
    (∃ d, i = .wrOpn d ∧ effect b i e = e.setOpn (keepOperand b.width d)) ∨
    ((∀ high, i ≠ .cmdPowmod high ∧ i ≠ .cmdClear high) ∧ (∀ opcode high, i ≠ .cmdRsvd opcode high) ∧
      (∀ d, i ≠ .wrIe d ∧ i ≠ .wrOpa d ∧ i ≠ .wrOpb d ∧ i ≠ .wrOpn d) ∧ effect b i e = e) := by
  cases i with
  | cmdPowmod high =>
    cases hp : e.phase
    · by_cases ha : operandsAdmitted b e
      · exact .inl ⟨⟨_, rfl⟩, rfl, ha, by simp only [effect, whenIdle_idle hp, acceptPowmod_starts ha]⟩
      · exact .inr (.inl ⟨⟨_, rfl⟩, rfl, ha, by
          simpa only [effect, whenIdle_idle hp] using acceptPowmod_refuses ha⟩)
    · exact .inr (.inr (.inl ⟨⟨high, .inl rfl⟩, rfl, by simp only [effect, whenIdle_run hp]⟩))
  | cmdClear high =>
    cases hp : e.phase
    · exact .inr (.inr (.inr (.inl ⟨⟨_, rfl⟩, rfl, by simp only [effect, whenIdle_idle hp]⟩)))
    · exact .inr (.inr (.inl ⟨⟨high, .inr rfl⟩, rfl, by simp only [effect, whenIdle_run hp]⟩))
  | cmdRsvd _ _ => exact .inr (.inr (.inr (.inr (.inl ⟨⟨_, _, rfl⟩, rfl⟩))))
  | wrIe _ => simp [effect]
  | wrOpa _ => simp [effect]
  | wrOpb _ => simp [effect]
  | wrOpn _ => simp [effect]
  | _ => simp [effect]

/-- The responses after an instruction. -/
def answered (b : Build) (i : Instr) (e : Engine b.width) (rs : List (BitVec b.bw)) : List (BitVec b.bw) :=
  match i with
  | .rd a => readReg b e a :: rs
  | _ => rs

/-- Every instruction answers a next state, and all it touches is the engine record and the responses. -/
theorem exec_eq (i : Instr) (s : State) :
    exec i s = .next { s with engine := effect s.build i s.engine,
                              responses := answered s.build i s.engine s.responses } := by
  cases i <;> rfl

/-! ## The error record -/

@[simp] theorem errorCode_ne_zero (k : ErrorKind) : errorCode k ≠ 0#4 := by cases k <;> decide

theorem errorCode_le_five (k : ErrorKind) : (errorCode k).toNat ≤ 5 := by cases k <;> decide

end Sys2Proof.Machine
end

