-- ==== Sys2Proof/Laws/PerInstr.lean ====
section
/-! SUPPORT. One lemma per instruction: the transaction that encodes it has the key of its own opcode-map
row (30_encoding.md R72, R75). -/

namespace Sys2Proof.Laws.KeyOfEncoding

/-- Every opcode-map row that accepts the key of a well-formed instruction's transaction is a row of the
instruction's own mnemonic (30_encoding.md R75). -/
def Statement (i : Instr) : Prop :=
  ∀ b : Build, i.wellFormed b.bw = true →
    ∀ row ∈ opcodeMap, row.accepts (encode b.bw i).key = true → row.mnemonic = i.mnemonic

/-- The rows that accept the key of a write to an index. -/
theorem row_of_write (n : BitVec 4) (a : Index) :
    ∀ row ∈ opcodeMap, row.accepts (1#1 ++ a ++ n : BitVec (1 + 4 + 4)) = true →
      row.mnemonic = (decodeWrite a n.toNat).mnemonic := by
  revert n a; decide

/-- The rows that accept the key of a read. -/
theorem row_of_read (a : Index) :
    ∀ row ∈ opcodeMap, row.accepts (0#1 ++ a ++ 0#4 : BitVec (1 + 4 + 4)) = true →
      row.mnemonic = .rd := by
  revert a; decide

/-- The nibble of a command's data is its opcode. -/
theorem command_nibble {bw : Nat} (hbw : 4 ≤ bw) (opcode high : Nat) :
    (BitVec.ofNat bw (16 * high + opcode)).setWidth 4 = BitVec.ofNat 4 opcode := by
  apply BitVec.eq_of_toNat_eq
  simp only [BitVec.toNat_setWidth, BitVec.toNat_ofNat]
  rw [Nat.mod_mod_of_dvd _ (Nat.pow_dvd_pow 2 hbw)]
  omega

/-- The rows that accept the key of a command. -/
theorem row_of_command (b : Build) (opcode high : Nat) :
    ∀ row ∈ opcodeMap, row.accepts (encodeCommand b.bw opcode high).key = true →
      row.mnemonic = (decodeWrite 0x1 (BitVec.ofNat 4 opcode).toNat).mnemonic := by
  unfold encodeCommand Txn.key
  simp only [command_nibble (bw_ge_four b)]
  exact row_of_write _ _

theorem rd (addr : Index) : Statement (.rd addr) := fun _ _ => row_of_read addr

theorem wrId (data : Nat) : Statement (.wrId data) := fun _ _ => row_of_write _ 0x0

theorem cmdNop (high : Nat) : Statement (.cmdNop high) := fun b _ => row_of_command b 0 high

theorem cmdPowmod (high : Nat) : Statement (.cmdPowmod high) := fun b _ => row_of_command b 1 high

theorem cmdClear (high : Nat) : Statement (.cmdClear high) := fun b _ => row_of_command b 2 high

theorem cmdRsvd (opcode : BitVec 4) (high : Nat) : Statement (.cmdRsvd opcode high) := fun b hw => by
  have h := row_of_command b opcode.toNat high
  have ho : ∀ o : BitVec 4, reservedOpcode o = true →
      (decodeWrite 0x1 (BitVec.ofNat 4 o.toNat).toNat).mnemonic = .cmdRsvd := by decide
  rw [ho opcode (Bool.and_eq_true_iff.mp hw).1] at h
  exact h

theorem wrStatus (data : Nat) : Statement (.wrStatus data) := fun _ _ => row_of_write _ 0x2

theorem wrIe (data : Nat) : Statement (.wrIe data) := fun _ _ => row_of_write _ 0x3

theorem wrOpa (data : Nat) : Statement (.wrOpa data) := fun _ _ => row_of_write _ 0x4

theorem wrOpb (data : Nat) : Statement (.wrOpb data) := fun _ _ => row_of_write _ 0x5

theorem wrOpn (data : Nat) : Statement (.wrOpn data) := fun _ _ => row_of_write _ 0x6

theorem wrResult (data : Nat) : Statement (.wrResult data) := fun _ _ => row_of_write _ 0x7

theorem wrRsvd (addr : Index) (data : Nat) : Statement (.wrRsvd addr data) := fun b hw => by
  have h := row_of_write ((BitVec.ofNat b.bw data).setWidth 4) addr
  rw [decodeWrite_reserved (by simpa [reservedIndex] using (Bool.and_eq_true_iff.mp hw).1)] at h
  exact h

end Sys2Proof.Laws.KeyOfEncoding
end

