-- ==== Sys2Proof/Laws/Step.lean ====
section
/-! SUPPORT. What a step, and an engine step, can do, said once. -/

namespace Sys2Proof.Machine

/-! ## Engine steps -/

theorem engineTurn_idle {w : Nat} {e : Engine w} (h : e.phase = .idle) : engineTurn e = e := by
  unfold engineTurn; rw [h]

theorem engineTurn_run {w : Nat} {e : Engine w} (h : e.phase = .run) : engineTurn e = runStep e := by
  unfold engineTurn; rw [h]

/-- FINISH, MULSQ or SQ, by w.exp (42_engine.md R140). -/
theorem runStep_cases {w : Nat} (e : Engine w) :
    (e.wexp.toNat = 0 ∧ runStep e = e.finish) ∨
    (e.wexp.toNat ≠ 0 ∧ e.wexp.toNat % 2 = 1 ∧ runStep e = e.mulsq) ∨
    (e.wexp.toNat ≠ 0 ∧ e.wexp.toNat % 2 = 0 ∧ runStep e = e.sq) := by
  unfold runStep
  split
  · next h => exact .inl ⟨h, rfl⟩
  · next h =>
    split
    · next h' => exact .inr (.inl ⟨h, h', rfl⟩)
    · next h' => exact .inr (.inr ⟨h, by omega, rfl⟩)

theorem shifted_exponent {w : Nat} (x : BitVec w) : (x >>> 1).toNat = x.toNat / 2 := by
  rw [BitVec.toNat_ushiftRight, Nat.shiftRight_eq_div_pow]

/-- The squared base is the remainder, when the modulus is not 0. -/
theorem squaredBase_toNat {w : Nat} {e : Engine w} (h : 0 < e.wmod.toNat) :
    (squaredBase e).toNat = e.wbase.toNat * e.wbase.toNat % e.wmod.toNat := by
  unfold squaredBase
  rw [reduce_of_pos h, BitVec.toNat_ofNat, Nat.mod_eq_of_lt]
  exact Nat.lt_trans (Nat.mod_lt _ h) e.wmod.isLt

/-- The multiplied accumulator is the remainder, when the modulus is not 0. -/
theorem multipliedAcc_toNat {w : Nat} {e : Engine w} (h : 0 < e.wmod.toNat) :
    (multipliedAcc e).toNat = e.wacc.toNat * e.wbase.toNat % e.wmod.toNat := by
  unfold multipliedAcc
  rw [reduce_of_pos h, BitVec.toNat_ofNat, Nat.mod_eq_of_lt]
  exact Nat.lt_trans (Nat.mod_lt _ h) e.wmod.isLt

/-- The last step of a run. -/
theorem engineTurn_last {w : Nat} {e : Engine w} (hp : e.phase = .run) (hx : e.wexp.toNat = 0) :
    engineTurn e = e.finish := by
  rw [engineTurn_run hp]; unfold runStep; rw [if_pos hx]

/-- Every other step of a run shifts the exponent register, and leaves the phase, the modulus and all that
the host sees. -/
theorem engineTurn_inner {w : Nat} {e : Engine w} (hp : e.phase = .run) (hx : e.wexp.toNat ≠ 0) :
    (engineTurn e).phase = .run ∧ (engineTurn e).wexp = e.wexp >>> 1 ∧ (engineTurn e).wmod = e.wmod ∧
      sameVisible (engineTurn e) e := by
  rw [engineTurn_run hp]
  rcases runStep_cases e with ⟨h0, _⟩ | ⟨_, _, h⟩ | ⟨_, _, h⟩
  · exact absurd h0 hx
  · rw [h]; exact ⟨hp, rfl, rfl, ⟨rfl, rfl, rfl, rfl⟩, ⟨rfl, rfl, rfl⟩, rfl, rfl⟩
  · rw [h]; exact ⟨hp, rfl, rfl, ⟨rfl, rfl, rfl, rfl⟩, ⟨rfl, rfl, rfl⟩, rfl, rfl⟩

/-- What the engine's turn can do. -/
theorem engineTurn_cases {w : Nat} (e : Engine w) :
    (e.phase = .idle ∧ engineTurn e = e) ∨
    (e.phase = .run ∧ e.wexp.toNat = 0 ∧ engineTurn e = e.finish) ∨
    (e.phase = .run ∧ e.wexp.toNat ≠ 0 ∧ e.wexp.toNat % 2 = 1 ∧ engineTurn e = e.mulsq) ∨
    (e.phase = .run ∧ e.wexp.toNat ≠ 0 ∧ e.wexp.toNat % 2 = 0 ∧ engineTurn e = e.sq) := by
  cases hp : e.phase
  · exact .inl ⟨rfl, engineTurn_idle hp⟩
  · rw [engineTurn_run hp]
    rcases runStep_cases e with ⟨h0, h⟩ | ⟨h0, hb, h⟩ | ⟨h0, hb, h⟩
    · exact .inr (.inl ⟨rfl, h0, h⟩)
    · exact .inr (.inr (.inl ⟨rfl, h0, hb, h⟩))
    · exact .inr (.inr (.inr ⟨rfl, h0, hb, h⟩))

/-- An idle engine stays as it is, however many turns it gets. -/
theorem engineTurn_iterate_idle {w : Nat} {e : Engine w} (hp : e.phase = .idle) (k : Nat) :
    engineTurn^[k] e = e := by
  induction k with
  | zero => rfl
  | succ k ih => rw [Function.iterate_succ, Function.comp, engineTurn_idle hp, ih]

/-- The exponent register loses one bit of its length in every step but the last. -/
theorem bitlen_shifted {w : Nat} {x : BitVec w} (h : x.toNat ≠ 0) :
    bitlen x.toNat = bitlen (x >>> 1).toNat + 1 := by
  rw [shifted_exponent]; exact bitlen_pos h

/-! ## Steps -/

/-- What a step that answers a next state did. -/
theorem step_cases {s t : State} (h : step s = .next t) :
    (s.events = [] ∧ t = s.withEngine (engineTurn s.engine)) ∨
    (∃ rest, s.events = .engine :: rest ∧ t = { s with engine := engineTurn s.engine, events := rest }) ∨
    (∃ x rest, s.events = .host x :: rest ∧ exec (decode x) (s.withEvents rest) = .next t) ∨
    (∃ p rest, s.events = .reset p :: rest ∧ t = resetState s p rest) := by
  unfold step at h
  split at h
  · next he => injection h with h; exact .inl ⟨he, h.symm⟩
  · next x rest he => exact .inr (.inr (.inl ⟨x, rest, he, h⟩))
  · next rest he => injection h with h; exact .inr (.inl ⟨rest, he, h.symm⟩)
  · next p rest he => injection h with h; exact .inr (.inr (.inr ⟨p, rest, he, h.symm⟩))
  · cases h
  · cases h

theorem step_silent {s : State} (h : s.events = []) : step s = .next (s.withEngine (engineTurn s.engine)) := by
  unfold step; rw [h]

theorem step_engine {s : State} {rest : List (Event s.build.bw)} (h : s.events = .engine :: rest) :
    step s = .next { s with engine := engineTurn s.engine, events := rest } := by
  unfold step; rw [h]

theorem step_host {s : State} {x : Txn s.build.bw} {rest : List (Event s.build.bw)}
    (h : s.events = .host x :: rest) : step s = exec (decode x) (s.withEvents rest) := by
  unfold step; rw [h]

theorem step_reset {s : State} {p : Option (Txn s.build.bw)} {rest : List (Event s.build.bw)}
    (h : s.events = .reset p :: rest) : step s = .next (resetState s p rest) := by
  unfold step; rw [h]

/-- The next state of a host transaction. -/
theorem step_host_eq {s t : State} {x : Txn s.build.bw} {rest : List (Event s.build.bw)}
    (h : exec (decode x) (s.withEvents rest) = .next t) :
    t = { s with engine := effect s.build (decode x) s.engine, events := rest,
                 responses := answered s.build (decode x) s.engine s.responses } := by
  rw [exec_eq] at h; injection h with h; exact h.symm

/-- What a step that answers a next state did, in the words of Safety.lean. -/
theorem step_kinds {s t : State} (h : step s = .next t) :
    (∃ evs, nextIsEngine s ∧ ¬ nextIsReset s ∧ (∀ i, ¬ nextInstr s i) ∧
      t = { s with engine := engineTurn s.engine, events := evs }) ∨
    (∃ x rest, s.events = .host x :: rest ∧ ¬ nextIsEngine s ∧ ¬ nextIsReset s ∧
      (∀ i, nextInstr s i ↔ i = decode x) ∧
      t = { s with engine := effect s.build (decode x) s.engine, events := rest,
                   responses := answered s.build (decode x) s.engine s.responses }) ∨
    (∃ p rest, nextIsReset s ∧ ¬ nextIsEngine s ∧ (∀ i, ¬ nextInstr s i) ∧ t = resetState s p rest) := by
  rcases step_cases h with ⟨he, rfl⟩ | ⟨r, he, rfl⟩ | ⟨x, r, he, h⟩ | ⟨p, r, he, rfl⟩
  · exact .inl ⟨s.events, .inl he, by simp [nextIsReset, he], by simp [nextInstr, he], rfl⟩
  · exact .inl ⟨_, .inr ⟨_, he⟩, by simp [nextIsReset, he], by simp [nextInstr, he], rfl⟩
  · refine .inr (.inl ⟨x, r, he, by simp [nextIsEngine, he], by simp [nextIsReset, he], fun i => ?_,
      step_host_eq h⟩)
    simp [nextInstr, he, eq_comm]
  · exact .inr (.inr ⟨p, r, ⟨p, r, he⟩, by simp [nextIsEngine, he], by simp [nextInstr, he], rfl⟩)

/-! ## Runs -/

theorem run_zero (s : State) : Sys2Proof.core.run 0 s = .next s := rfl

/-- A run of `k + 1` steps is one step and a run of `k`, for any machine. -/
theorem core_run_succ (M : Host.Core) {s t : M.State} (h : M.step s = .next t) (k : Nat) :
    M.run (k + 1) s = M.run k t := by
  show (match M.step s with
    | .next s' => M.run k s'
    | .fault r => .fault r
    | .refused r => .refused r) = _
  rw [h]

/-- A run of `k + 1` steps is one step and a run of `k`. -/
theorem run_succ {s t : State} (h : step s = .next t) (k : Nat) :
    Sys2Proof.core.run (k + 1) s = Sys2Proof.core.run k t :=
  core_run_succ Sys2Proof.core h k

/-- A run of `i + j` steps is a run of `i` and a run of `j`, for any machine. -/
theorem core_run_add (M : Host.Core) (i j : Nat) {s t : M.State} (h : M.run i s = .next t) :
    M.run (i + j) s = M.run j t := by
  induction i generalizing s with
  | zero => injection h with h; rw [h, Nat.zero_add]
  | succ i ih =>
    rw [Nat.succ_add]
    cases hs : M.step s with
    | next s' => rw [core_run_succ M hs] at h ⊢; exact ih h
    | fault r => simp only [Host.Core.run, hs] at h; cases h
    | refused r => simp only [Host.Core.run, hs] at h; cases h

end Sys2Proof.Machine
end

