-- ==== Sys2Proof/Tests/Slice0.lean ====
section
/-! SUPPORT. Tests with expected results from spec/ (the vectors of 95_test_vectors.md and the examples of the
rules), the ill-formed terms WellFormed refuses, and a witness for the hypotheses of every statement that has
any. -/

namespace Sys2Proof.Machine.Tests

/-! ## Small states -/

def w16u : Build := { width := 16, signed := false }
def w16s : Build := { width := 16, signed := true }
def w32u : Build := { width := 32, signed := false }

/-- The operands of a row of 95_test_vectors.md, in an engine that is otherwise as after reset. -/
def operands (b : Build) (a x n : Int) : Engine b.width :=
  { Engine.afterReset 0 0 0 0 with opa := pat b.width a, opb := pat b.width x, opn := pat b.width n }

/-- An engine in a run with given working registers. -/
def running (b : Build) (base exponent modulus acc : Nat) : Engine b.width :=
  { Engine.afterReset (BitVec.ofNat _ base) (BitVec.ofNat _ exponent) (BitVec.ofNat _ modulus)
      (BitVec.ofNat _ acc) with phase := .run }

def stateOf (b : Build) (e : Engine b.width) (evs : List (Event b.bw)) : State :=
  { build := b, engine := e, events := evs, responses := [], fresh := 0 }

/-- The number that `f` reads off a next state. -/
def after (o : Host.Outcome State Fault Refusal) (f : State → Nat) : Option Nat :=
  match o with
  | .next t => some (f t)
  | .fault _ => none
  | .refused _ => none

def status (t : State) : Nat := (statusWord t.engine).toNat

/-- The latest response. -/
def response (t : State) : Nat := (t.responses.map BitVec.toNat).headD 0

/-! ## WellFormed: an ill-formed term for each check -/

theorem test_wf_fitsBus : (Instr.wrOpa (2 ^ 32)).wellFormed 32 = false := by decide
theorem test_wf_fitsHigh : (Instr.cmdPowmod (2 ^ 28)).wellFormed 32 = false := by decide
theorem test_wf_reservedOpcode : (Instr.cmdRsvd 0x2 0).wellFormed 32 = false := by decide
theorem test_wf_reservedIndex : (Instr.wrRsvd 0x7 0).wellFormed 32 = false := by decide

/-! ## Decoding: one key of every row, bit by bit from 30_encoding.md R75 -/

theorem test_decode_rd : decodeTableWord 16 0b0_1001_0000 = some (.rd 0x9) := by decide
theorem test_decode_wrId : decodeTableWord 16 0b1_0000_0000 = some (.wrId 0) := by decide
theorem test_decode_cmdNop : decodeTableWord 16 0b1_0001_0000 = some (.cmdNop 0) := by decide
theorem test_decode_cmdPowmod : decodeTableWord 16 0b1_0001_0001 = some (.cmdPowmod 0) := by decide
theorem test_decode_cmdClear : decodeTableWord 16 0b1_0001_0010 = some (.cmdClear 0) := by decide
theorem test_decode_cmdRsvd3 : decodeTableWord 16 0b1_0001_0011 = some (.cmdRsvd 0x3 0) := by decide
theorem test_decode_cmdRsvd7 : decodeTableWord 16 0b1_0001_0111 = some (.cmdRsvd 0x7 0) := by decide
theorem test_decode_cmdRsvdF : decodeTableWord 16 0b1_0001_1111 = some (.cmdRsvd 0xF 0) := by decide
theorem test_decode_wrStatus : decodeTableWord 16 0b1_0010_0000 = some (.wrStatus 0) := by decide
theorem test_decode_wrIe : decodeTableWord 16 0b1_0011_0001 = some (.wrIe 1) := by decide
theorem test_decode_wrOpa : decodeTableWord 16 0b1_0100_0100 = some (.wrOpa 4) := by decide
theorem test_decode_wrOpb : decodeTableWord 16 0b1_0101_1101 = some (.wrOpb 13) := by decide
theorem test_decode_wrOpn : decodeTableWord 16 0b1_0110_0111 = some (.wrOpn 7) := by decide
theorem test_decode_wrResult : decodeTableWord 16 0b1_0111_0000 = some (.wrResult 0) := by decide
theorem test_decode_wrRsvd : decodeTableWord 16 0b1_1001_0101 = some (.wrRsvd 0x9 5) := by decide

/-- `data = 0x13` is opcode 3 and `data = 0x20` is opcode 0 (41_commands.md R126). -/
theorem test_decode_ignored_bits :
    decode (Txn.write 0x1 0x13#32) = .cmdRsvd 0x3 1 ∧ decode (Txn.write 0x1 0x20#32) = .cmdNop 2 := by decide

/-! ## Assembly (the keys of program P1 and of H8) -/

theorem test_asm_keys : (asmTxn w32u (.rd .id)).key = 0x000 ∧ (asmTxn w32u (.wr .opa 4)).key = 0x144 ∧
    (asmTxn w32u (.wr .opn 497)).key = 0x161 ∧ (asmTxn w32u (.cmd opPowmod)).key = 0x111 ∧
    (asmTxn w32u (.cmd opClear)).key = 0x112 ∧ (asmTxn w32u (.cmd opNop)).key = 0x110 := by decide

theorem test_asm_negative : (asmData w16s (-3)).toNat = 0xFFFD := by decide

/-! ## One step -/

/-- H1. -/
theorem test_rd_id : after (exec (.rd 0x0) (State.resetOf w16u)) response = some 0x01000010 := by decide
/-- H8: an operand is not sign-extended. -/
theorem test_rd_opa :
    after (exec (.rd 0x4) (stateOf w16s (operands w16s (-3) 0 0) [])) response = some 0xFFFD := by decide

/-- H7. -/
theorem test_wrOpa_truncates :
    after (exec (.wrOpa 0x12345) (State.resetOf w16u)) (·.engine.opa.toNat) = some 0x2345 := by decide
/-- H9. -/
theorem test_wrOpb_truncates :
    after (exec (.wrOpb 0x10005) (State.resetOf w16u)) (·.engine.opb.toNat) = some 5 := by decide
/-- H10. -/
theorem test_wrOpn_truncates :
    after (exec (.wrOpn 0x10007) (State.resetOf w16u)) (·.engine.opn.toNat) = some 7 := by decide

/-- STATUS 0x02: DONE. -/
def doneState (b : Build) (ie : Bool) : State :=
  stateOf b { operands b 0 0 0 with done := true, ie := ie, result := 445 } []

/-- H16. -/
theorem test_wrIe_raises : after (exec (.wrIe 1) (doneState w16u false)) status = some 0x0A := by decide
/-- H17. -/
theorem test_wrIe_masks : after (exec (.wrIe 0) (doneState w16u true)) status = some 0x02 := by decide

/-- H11. -/
theorem test_wrId : after (exec (.wrId 0) (doneState w16u false))
    (fun t => (idWord t.build).toNat) = some 0x01000010 := by decide
/-- H12. -/
theorem test_wrStatus : after (exec (.wrStatus 0)
    (stateOf w16u ((operands w16u 0 0 0).raise .illegalCmd) [])) status = some 0x44 := by decide
/-- H13. -/
theorem test_wrResult : after (exec (.wrResult 0) (doneState w32u false)) (·.engine.result.toNat) = some 445 := by
  decide
/-- H15. -/
theorem test_wrRsvd : after (exec (.wrRsvd 0xF 3) (State.resetOf w16u)) status = some 0 := by decide

/-- A run of program P1 after its first step. -/
def runState : State := stateOf w32u (running w32u 16 6 497 4) [.engine]

/-- C1. -/
theorem test_nop_idle : after (exec (.cmdNop 0) (doneState w16u false)) status = some 0x02 := by decide
/-- C2. -/
theorem test_nop_run : after (exec (.cmdNop 0) runState) status = some 0x01 := by decide
/-- C4. -/
theorem test_rsvd_idle : after (exec (.cmdRsvd 0x7 0) (doneState w16u false)) status = some 0x46 := by decide
/-- C6. -/
theorem test_rsvd_run : after (exec (.cmdRsvd 0xF 0) runState) status = some 0x45 := by decide
/-- C10. -/
theorem test_clear_run : after (exec (.cmdClear 0) runState) status = some 0x55 := by decide
/-- C11: STATUS 0x56 becomes 0. -/
theorem test_clear_idle : after (exec (.cmdClear 0)
    (stateOf w16u ({ operands w16u 0 0 0 with done := true }.raise .busy) [])) status = some 0 := by decide

/-- C9, G2, G8, G12 and C13. -/
theorem test_powmod_status :
    after (exec (.cmdPowmod 0) runState) status = some 0x55 ∧
    after (exec (.cmdPowmod 0) (stateOf w16u (operands w16u 2 3 257) [])) status = some 0x14 ∧
    after (exec (.cmdPowmod 0) (stateOf w16u (operands w16u 2 3 0) [])) status = some 0x24 ∧
    after (exec (.cmdPowmod 0) (stateOf w16s (operands w16s 2 (-1) 183) [])) status = some 0x14 ∧
    after (exec (.cmdPowmod 0) (stateOf w16s (operands w16s 2 (-1) 7) [])) status = some 0x34 ∧
    after (exec (.cmdPowmod 0) (stateOf w16u (operands w16u 4 11 13) [])) status = some 0x01 := by decide

/-- The start of trace 2.6.2: `fmod(-3, 7) = 4`. -/
theorem test_powmod_start :
    after (exec (.cmdPowmod 0) (stateOf w16s (operands w16s (-3) 5 7) []))
      (fun t => t.engine.wbase.toNat + 100 * t.engine.wexp.toNat + 10000 * t.engine.wacc.toNat) =
      some 10504 := by decide

/-- The example of 42_engine.md R142. -/
theorem test_mulsq : after (step (stateOf w32u (running w32u 429 1 497 30) [.engine]))
    (fun t => t.engine.wacc.toNat + 1000 * t.engine.wbase.toNat) = some 151445 := by decide
/-- The example of 42_engine.md R143. -/
theorem test_sq : after (step runState)
    (fun t => t.engine.wbase.toNat + 1000 * t.engine.wexp.toNat) = some 3256 := by decide
/-- The last row of trace 2.6.1. -/
theorem test_finish : after (step (stateOf w32u (running w32u 151 0 497 445) []))
    (fun t => t.engine.result.toNat + 1000 * status t) = some 2445 := by decide
/-- X2: a reset during a run. -/
theorem test_reset : after (step (stateOf w16u (running w16u 3 2047 256 171) [.reset none]))
    (fun t => t.engine.result.toNat + status t) = some 0 := by decide

/-! ## Witnesses for the hypotheses of the statements

Each theorem shows, on concrete states and operands, that the hypotheses of the statement it is named after can
hold together; where a statement has several clauses, one for each clause at the ends of its range. -/

/-- V2, the operands (-3)^5 mod 7. -/
def ready : State := stateOf w16s (operands w16s (-3) 5 7) []

theorem test_witness_DecodeOfEncodeIsIdentity :
    (Instr.wrOpa (2 ^ 32 - 1)).wellFormed w32u.bw = true ∧ (Instr.cmdNop (2 ^ 28 - 1)).wellFormed w32u.bw = true ∧
    (Instr.cmdRsvd 0x3 0).wellFormed w32u.bw = true ∧ (Instr.cmdRsvd 0xF 0).wellFormed w32u.bw = true ∧
    (Instr.wrRsvd 0x8 0).wellFormed w32u.bw = true ∧ (Instr.wrRsvd 0xF 0).wellFormed w32u.bw = true := by decide

theorem test_witness_StepRunsTheFirstEvent :
    (stateOf w32u (operands w32u 0 0 0) [.host (.read 0x0)]).events = [.host (.read 0x0)] ∧
    runState.events = [.engine] ∧ ready.events = [] ∧
    (stateOf w32u (operands w32u 0 0 0) [.reset none]).events = [.reset none] := ⟨rfl, rfl, rfl, rfl⟩

theorem test_witness_StepRefusesOnlyPlatformEvents :
    (stateOf w32u (operands w32u 0 0 0) [.splitAccess]).events = [.splitAccess] ∧
    (stateOf w32u (operands w32u 0 0 0) [.powerRemoved]).events = [.powerRemoved] ∧
    (∀ rest, ready.events ≠ .splitAccess :: rest) ∧ (∀ rest, ready.events ≠ .powerRemoved :: rest) :=
  ⟨rfl, rfl, fun _ h => (by cases h), fun _ h => (by cases h)⟩

/-- For BuildNeverChanges, StepKeepsTheInvariant and the statements about what a step may change. -/
theorem test_witness_step : ready.Inv ∧ step ready = .next ready := by
  refine ⟨?_, rfl⟩
  decide

/-- The clauses of ReadAnswersRegisterMap, at every index the map names and at both ends of the reserved
range. -/
theorem test_witness_ReadAnswersRegisterMap :
    (List.map (fun a => after (exec (.rd a) (doneState w16u true)) response)
      [0x0, 0x1, 0x2, 0x3, 0x4, 0x7, 0x8, 0xF]) =
      [some 0x01000010, some 0, some 0x0A, some 1, some 0, some 445, some 0, some 0] := by decide

/-- For StoringWritesAreIdempotent and OperandReadsBackZeroExtended. -/
theorem test_witness_writes : ∃ (i : Instr) (a : Index) (d : Nat),
    (i = .wrIe d ∨ i = .wrOpa d ∨ i = .wrOpb d ∨ i = .wrOpn d) ∧
    ((i = .wrOpa d ∧ a = 0x4) ∨ (i = .wrOpb d ∧ a = 0x5) ∨ (i = .wrOpn d ∧ a = 0x6)) :=
  ⟨.wrOpa 3, 0x4, 3, by simp, by simp⟩

/-- The range of ReadOnlyWritesChangeNothing. -/
theorem test_witness_ReadOnlyWritesChangeNothing : 8 ≤ (0x8 : Index).toNat ∧ 8 ≤ (0xF : Index).toNat := by decide

/-- The opcodes of NopChangesNothing, CommandDecodeOrder, ReservedOpcodeRaisesIllegalCmd,
ClearResetsTheStatus, PowmodChecksThenStarts and OneErrorByPriority, at the ends of each range. -/
theorem test_witness_opcodes : (0x10 : BitVec 32).toNat % 16 = 0 ∧ (0x1 : BitVec 32).toNat % 16 = 1 ∧
    (0xF2 : BitVec 32).toNat % 16 = 2 ∧ 3 ≤ (0x13 : BitVec 32).toNat % 16 ∧ 3 ≤ (0xF : BitVec 32).toNat % 16 := by
  decide

/-- The phases of BusyRejection, CommandDecodeOrder, ClearResetsTheStatus and OneErrorByPriority. -/
theorem test_witness_phases : runState.engine.phase = .run ∧ ready.engine.phase = .idle := ⟨rfl, rfl⟩

/-- For PowmodStartsARun, LoopInvariantIsKept (first clause), RunComputesThePower and the last cases of
PowmodChecksThenStarts and OneErrorByPriority; the second state is at `n = NMAX` (G6). -/
theorem test_witness_admitted : ready.engine.phase = .idle ∧ ready.events = [] ∧
    operandsAdmitted w16s ready.engine ∧ operandsAdmitted w16s (operands w16s (-1) 32767 182) ∧
    operandsAdmitted w16u (operands w16u 7 0 1) := by decide

/-- The corner clauses of RunComputesThePower and RunResultUnderEveryInterleaving: `n = 1` (V7), `b = 0` (V4),
and `a = 0` with `b > 0` (V5), each with no event pending. -/
theorem test_witness_corners :
    operandsAdmitted w16u (operands w16u 123 456 1) ∧ val false (operands w16u 123 456 1).opn = 1 ∧
    operandsAdmitted w16u (operands w16u 0 0 13) ∧ val false (operands w16u 0 0 13).opb = 0 ∧
    operandsAdmitted w16u (operands w16u 0 5 13) ∧ val false (operands w16u 0 5 13).opa = 0 ∧
    0 < val false (operands w16u 0 5 13).opb ∧ (operands w16u 0 5 13).phase = .idle ∧
    (stateOf w16u (operands w16u 0 5 13) []).events = [] := by decide

/-- For GuardRefusesWithOverflow, at `n = NMAX + 1` (G3, G7). -/
theorem test_witness_GuardRefusesWithOverflow :
    val false (operands w16u 5 0 257).opn - 1 > guardLimit w16u ∧
    val true (operands w16s 2 3 183).opn - 1 > guardLimit w16s ∧
    ¬ val false (operands w16u 5 0 256).opn - 1 > guardLimit w16u := by decide

/-- For NonPositiveModulusRefused: 0 unsigned (G8), 0 and -7 signed (G9, G10), and 1, which is not refused (V6). -/
theorem test_witness_NonPositiveModulusRefused :
    val false (operands w16u 2 3 0).opn ≤ 0 ∧ val true (operands w16s 2 3 0).opn ≤ 0 ∧
    val true (operands w16s 2 3 (-7)).opn ≤ 0 ∧ (operands w16s 2 3 (-7)).opn.getLsbD 15 = true ∧
    ¬ val false (operands w16u 7 0 1).opn ≤ 0 ∧ (operands w16u 7 0 1).phase = .idle := by decide

/-- For NegativeExponentRefused (G11). -/
theorem test_witness_NegativeExponentRefused : (operands w16s 2 (-1) 7).phase = .idle ∧
    val true (operands w16s 2 (-1) 7).opn - 1 ≤ guardLimit w16s ∧ 0 < val true (operands w16s 2 (-1) 7).opn ∧
    val true (operands w16s 2 (-1) 7).opb < 0 := by decide

/-- The builds of GuardIsTheSquareRootTest's table. -/
theorem test_witness_GuardIsTheSquareRootTest :
    ∀ w ∈ [8, 16, 32, 64], ∀ sg : Bool, ∃ b : Build, b.width = w ∧ b.signed = sg := by
  intro w hw sg
  simp only [List.mem_cons, List.not_mem_nil, or_false] at hw
  exact ⟨{ width := w, signed := sg, two_le_width := by omega, width_le := by omega }, rfl, rfl⟩

/-- For PatternsAndIntegersAgree: a negative pattern, a pattern that is not, and the ends of the value range. -/
theorem test_witness_PatternsAndIntegersAgree :
    val true (0x8000 : BitVec 16) = minv w16s ∧ val true (0x7FFF : BitVec 16) = maxv w16s ∧
    val false (0xFFFF : BitVec 16) = maxv w16u := by decide

/-- For IntegerPrimitives and BaseReductionIsFloorCorrect (42_engine.md R148). -/
theorem test_witness_primitives : fmod (-3) 7 = 4 ∧ fmod (-14) 7 = 0 ∧ fmod 1000 7 = 6 ∧ isqrt 65535 = 255 ∧
    bitlen 13 = 4 := by decide

/-- For EngineStepSelection, FinishCompletesTheRun, MulsqMultipliesAndSquares and SqSquaresTheBase. -/
theorem test_witness_engine_steps :
    runState.events = [.engine] ∧ runState.engine.phase = .run ∧ runState.engine.wexp.toNat ≠ 0 ∧
    runState.engine.wexp.toNat % 2 = 0 ∧ 1 ≤ runState.engine.wmod.toNat ∧
    (running w32u 429 1 497 30).wexp.toNat % 2 = 1 ∧ 1 ≤ (running w32u 429 1 497 30).wmod.toNat ∧
    (running w32u 151 0 497 445).phase = .run ∧ (running w32u 151 0 497 445).wexp.toNat = 0 := by decide

/-- For LoopInvariantIsKept, second clause: a run of trace 2.6.1, before and after a step. -/
theorem test_witness_LoopInvariantIsKept : runState.engine.phase = .run ∧ loopInv runState.engine 4 13 497 ∧
    after (step runState) (fun t => if t.engine.phase = .run then 1 else 0) = some 1 := by decide

/-- For RunTakesBitlenPlusOneSteps and RunTerminatesWhenHostIsSilent; the first engine has `b = MAXV`. -/
theorem test_witness_run_length : (running w16s 1 32767 182 1).phase = .run ∧
    (running w16s 1 32767 182 1).wexp.toNat = maxv w16s ∧ 0 < bitlen (running w16s 1 32767 182 1).wexp.toNat ∧
    (stateOf w16s (running w16s 1 32767 182 1) []).events = [] := by decide

/-- A schedule with the operand write and the rejected CLEAR of O1 and O3 between the four steps of
(-3)^5 mod 7. -/
def disturbed : List (Event w16s.bw) :=
  [.engine, .host (.write 0x4 9), .engine, .host (.write 0x1 2), .engine, .host (.read 0x2), .engine]

theorem test_witness_RunResultUnderEveryInterleaving :
    (operands w16s (-3) 5 7).phase = .idle ∧ operandsAdmitted w16s (operands w16s (-3) 5 7) ∧
    (stateOf w16s (operands w16s (-3) 5 7) disturbed).events = disturbed ++ [] ∧
    (∀ ev ∈ disturbed, ordinary ev = true) ∧ disturbed.getLast? = some .engine ∧
    disturbed.count .engine = bitlen (val true (operands w16s (-3) 5 7).opb).toNat + 1 := by decide

/-- A schedule that polls STATUS twice during the run and once after it, and then reads RESULT. -/
def polled : List (Event w16s.bw) :=
  [.host (.read 0x2), .engine, .host (.read 0x2), .engine, .engine, .engine, .host (.read 0x2), .host (.read 0x7)]

/-- A schedule that stops polling while the run is in progress. -/
def polledEarly : List (Event w16s.bw) := [.host (.read 0x2), .engine, .host (.read 0x7)]

/-- Both ends of PollingSeesTheResultOnceBusyIsClear: `polled` gives the engine the 4 turns of the run and ends
with BUSY = 0, `polledEarly` gives it 1 and ends with BUSY = 1. -/
theorem test_witness_PollingSeesTheResultOnceBusyIsClear :
    (operands w16s (-3) 5 7).phase = .idle ∧ operandsAdmitted w16s (operands w16s (-3) 5 7) ∧
    (∀ sched ∈ [polled, polledEarly], (stateOf w16s (operands w16s (-3) 5 7) sched).events = sched ++ [] ∧
      ∀ ev ∈ sched, ev = .engine ∨ ∃ a, ev = .host (.read a)) ∧
    polled.count .engine = bitlen (val true (operands w16s (-3) 5 7).opb).toNat + 1 ∧
    polledEarly.count .engine ≤ bitlen (val true (operands w16s (-3) 5 7).opb).toNat := by
  refine ⟨rfl, by decide, fun sched hs => ⟨(List.append_nil _).symm, fun ev h => ?_⟩, by decide, by decide⟩
  simp only [polled, polledEarly, List.mem_cons, List.not_mem_nil, or_false] at hs
  rcases hs with rfl | rfl <;> simp only [List.mem_cons, List.not_mem_nil, or_false] at h
  · rcases h with rfl | rfl | rfl | rfl | rfl | rfl | rfl | rfl <;> simp
  · rcases h with rfl | rfl | rfl <;> simp

/-- V2's operands. -/
theorem test_witness_PowmodPseudoInstruction : ∃ s : State, s.build = w16s ∧ s.engine.phase = .idle ∧
    minv w16s ≤ -3 ∧ (-3 : Int) ≤ maxv w16s ∧ (5 : Int) ≤ maxv w16s ∧ (7 : Int) ≤ maxv w16s ∧
    (7 : Int) - 1 ≤ guardLimit w16s ∧
    s.events = asmEvents s.build (asmPowmodIssue (-3) 5 7) ++
      (List.replicate (bitlen (5 : Int).toNat + 1) .engine ++
        (asmEvents s.build (asmWait 1 ++ [.rd .result]) ++ [])) :=
  ⟨stateOf w16s (operands w16s 0 0 0) (asmEvents w16s (asmPowmodIssue (-3) 5 7) ++
      (List.replicate (bitlen (5 : Int).toNat + 1) .engine ++
        (asmEvents w16s (asmWait 1 ++ [.rd .result]) ++ []))),
    rfl, rfl, by decide, by decide, by decide, by decide, by decide, rfl⟩

/-- For FermatInverse: program P2, 4^(13-2) mod 13. -/
theorem test_witness_FermatInverse : operandsAdmitted w16u (operands w16u 4 11 13) ∧
    Nat.Prime (val false (operands w16u 4 11 13).opn).toNat ∧
    val false (operands w16u 4 11 13).opb = val false (operands w16u 4 11 13).opn - 2 ∧
    ¬ val false (operands w16u 4 11 13).opn ∣ val false (operands w16u 4 11 13).opa := by
  refine ⟨by decide, ?_, by decide, by decide⟩
  show Nat.Prime 13
  decide

/-- For RunBoundsAndProducts and ReachableStatesAreSound: X5, a run that reset, `wr OPN, 5` and POWMOD reach. -/
theorem test_witness_reachable : ∃ s : State, Reachable w16u s ∧ s.engine.phase = .run := by
  refine ⟨_, .step (.step (.reset [.host (.write 0x6 5), .host (.write 0x1 1)]) rfl) rfl, ?_⟩
  decide

/-- The events that BusyChangesOnlyAtStartFinishReset, DoneChangesOnlyAsSpecified, ErrorsComeOnlyFromCommands,
ResultChangesOnlyAtFinishOrReset, IrqRisesAndFallsOnlyAsSpecified and their like name. -/
theorem test_witness_changes :
    startsRun (stateOf w16s (operands w16s (-3) 5 7) [.host (.write 0x1 1)]) ∧
    refusesPowmod (stateOf w16s (operands w16s (-3) 5 0) [.host (.write 0x1 1)]) ∧
    acceptsClear (stateOf w16s (operands w16s (-3) 5 7) [.host (.write 0x1 2)]) ∧
    rejectsCommand (stateOf w16s (running w16s 4 5 7 1) [.host (.write 0x1 2)]) ∧
    rejectsCommand (stateOf w16s (operands w16s (-3) 5 7) [.host (.write 0x1 7)]) ∧
    finishes (stateOf w16s (running w16s 2 0 7 2) [.engine]) ∧
    nextIsReset (stateOf w16s (running w16s 2 0 7 2) [.reset none]) ∧
    nextInstr (stateOf w16s (operands w16s (-3) 5 7) [.host (.write 0x3 1)]) (.wrIe 1) :=
  ⟨⟨⟨⟨0, _, _, rfl, rfl⟩, rfl⟩, by decide⟩, ⟨⟨⟨0, _, _, rfl, rfl⟩, rfl⟩, by decide⟩, ⟨⟨0, _, _, rfl, rfl⟩, rfl⟩,
    .inr ⟨⟨0, .inr ⟨_, _, rfl, rfl⟩⟩, rfl⟩, .inl ⟨7, 0, _, _, rfl, rfl⟩, ⟨.inr ⟨_, rfl⟩, rfl, by decide⟩,
    ⟨_, _, rfl⟩, _, _, rfl, rfl⟩

/-- For WorkingRegistersWrittenOnlyByTheRun and OperandsChangeOnlyByTheirWrites: a STATUS read in an idle
engine. -/
theorem test_witness_kept :
    ¬ nextIsReset (stateOf w16s (operands w16s (-3) 5 7) [.host (.read 0x2)]) ∧
    ¬ nextIsEngine (stateOf w16s (operands w16s (-3) 5 7) [.host (.read 0x2)]) ∧
    ¬ startsRun (stateOf w16s (operands w16s (-3) 5 7) [.host (.read 0x2)]) ∧
    (∀ d, ¬ nextInstr (stateOf w16s (operands w16s (-3) 5 7) [.host (.read 0x2)]) (.wrOpa d)) := by
  refine ⟨?_, ?_, ?_, ?_⟩
  · rintro ⟨_, _, h⟩
    cases h
  · rintro (h | ⟨_, h⟩) <;> cases h
  · rintro ⟨⟨⟨_, _, _, h, hi⟩, _⟩, _⟩
    cases h
    cases hi
  · rintro _ ⟨_, _, h, hi⟩
    cases h
    cases hi

/-- For ResetSetsEveryRegister: a reset alone, beside a read and beside a write (X6). -/
theorem test_witness_ResetSetsEveryRegister :
    (List.map (fun p => after (step (stateOf w16u (running w16u 3 5 7 1) [.reset p])) (·.responses.length))
      [none, some (.read 0x0), some (.write 0x4 9)]) = [some 0, some 1, some 0] := by decide

/-- For SameEdgeOrder. -/
theorem test_witness_SameEdgeOrder :
    cycleEvents false (some (Txn.read (bw := 32) 0x7)) true = [.host (.read 0x7), .engine] ∧
    cycleEvents true (some (Txn.read (bw := 32) 0x7)) true = [.reset (some (.read 0x7))] := by decide

/-- For ResetOverridesItsCycle: a run, with nothing, a read and a write presented (X2, X6). -/
theorem test_witness_ResetOverridesItsCycle :
    ∀ p ∈ [none, some (Txn.read (bw := w16u.bw) 0x7), some (.write 0x4 9)], ∀ stepEnds : Bool,
      (stateOf w16u (running w16u 3 2047 256 171) [.reset p]).events = cycleEvents true p stepEnds ++ [] :=
  fun _ _ _ => rfl

/-- For WorkingRegistersAreUnobservable: two idle engines that differ in w.acc, and a run of one step. -/
theorem test_witness_WorkingRegistersAreUnobservable :
    sameVisible (operands w16s (-3) 5 7) { operands w16s (-3) 5 7 with wacc := 9 } ∧
    ∃ t : State, Sys2Proof.core.run 1 (stateOf w16s (operands w16s (-3) 5 7) [.host (.write 0x1 1)]) = .next t :=
  ⟨by decide, _, rfl⟩

end Sys2Proof.Machine.Tests
end

section
/-! The overflow guard against the real square root, and patterns against integers (00_scope.md R9, R13). -/

namespace Sys2Proof.Machine

/-! ## The guard -/

/-- The greedy root of R14 is the library's floor square root. -/
theorem isqrt_eq_natSqrt (x : Nat) : isqrt x = Nat.sqrt x := Nat.eq_sqrt.2 (isqrt_spec x)

theorem sqrt_lt_intCast_iff_isqrt_lt (x : Nat) (m : Int) : Real.sqrt x < m ↔ (isqrt x : Int) < m := by
  rw [isqrt_eq_natSqrt, ← Real.floor_real_sqrt_eq_nat_sqrt, Int.floor_lt]

theorem guardLimit_lt_pred_iff (b : Build) (n : Int) : n - 1 > guardLimit b ↔ n > nmax b := by
  unfold nmax; omega

/-- One row of R9's table: the root is the one whose square and whose successor's square enclose MAXV. -/
theorem guard_row {b : Build} {m r : Nat} (hm : maxv b = m) (hlo : r * r ≤ m) (hhi : m < (r + 1) * (r + 1)) :
    maxv b = m ∧ guardLimit b = r ∧ nmax b = r + 1 := by
  have hr : guardLimit b = r := by
    unfold guardLimit; rw [hm, isqrt_eq_natSqrt, ← Nat.eq_sqrt.2 ⟨hlo, hhi⟩]
  exact ⟨hm, hr, congrArg (· + 1) hr⟩

theorem maxv_of_unsigned {b : Build} {w : Nat} (hw : b.width = w) (hs : b.signed = false) :
    maxv b = 2 ^ w - 1 := by
  simp [maxv, hw, hs]

theorem maxv_of_signed {b : Build} {w : Nat} (hw : b.width = w) (hs : b.signed = true) :
    maxv b = 2 ^ (w - 1) - 1 := by
  simp [maxv, hw, hs]

/-- Settles O28: a real is below an integer exactly when its floor is, and GUARD is the floor of the square
root of MAXV. -/
theorem guardIsTheSquareRootTest : Obligations.GuardIsTheSquareRootTest := by
  unfold Obligations.GuardIsTheSquareRootTest
  refine ⟨fun b n => ⟨sqrt_lt_intCast_iff_isqrt_lt _ _, guardLimit_lt_pred_iff b n, rfl, rfl,
    guard_mul_guard_le_maxv b⟩, fun b => ⟨?_, ?_, ?_, ?_, ?_, ?_, ?_, ?_⟩⟩ <;> intro hw hs
  case refine_1 | refine_3 | refine_5 | refine_7 =>
    exact guard_row (maxv_of_unsigned hw hs) (by norm_num) (by norm_num)
  case refine_2 | refine_4 | refine_6 | refine_8 =>
    exact guard_row (maxv_of_signed hw hs) (by norm_num) (by norm_num)

/-! ## Patterns and integers -/

theorem val_of_sign_bit {b : Build} {r : BitVec b.width}
    (h : b.signed = true ∧ r.getLsbD (b.width - 1) = true) : val b.signed r = r.toNat - 2 ^ b.width := by
  rw [← BitVec.msb_eq_getLsbD_last] at h
  simp [val, h]

theorem val_of_no_sign_bit {b : Build} {r : BitVec b.width}
    (h : ¬ (b.signed = true ∧ r.getLsbD (b.width - 1) = true)) : val b.signed r = r.toNat := by
  rw [← BitVec.msb_eq_getLsbD_last, ← Bool.and_eq_true] at h
  exact if_neg h

theorem pat_toNat_eq_emod (w : Nat) (v : Int) : ((pat w v).toNat : Int) = v % 2 ^ w := by
  have h0 : 0 ≤ v % 2 ^ w := Int.emod_nonneg _ (by positivity)
  have h1 : v % 2 ^ w < 2 ^ w := Int.emod_lt_of_pos _ (by positivity)
  calc ((pat w v).toNat : Int) = (pat w (v % 2 ^ w)).toNat := by simp [pat]
    _ = v % 2 ^ w := by rw [pat_toNat h0 h1, Int.toNat_of_nonneg h0]

/-- The value range holds as many integers as there are patterns. -/
theorem maxv_sub_minv (b : Build) : (maxv b : Int) - minv b = 2 ^ b.width - 1 := by
  have hw : (2 : Int) ^ b.width = 2 * 2 ^ (b.width - 1) := by exact_mod_cast width_pred_succ b
  unfold maxv minv
  cases b.signed with
  | false => simp
  | true => simp [hw]; ring

/-- Two integers of the value range with the same pattern are congruent mod `2 ^ W` and less than `2 ^ W`
apart. -/
theorem pat_injective_on_range {b : Build} {u v : Int} (hu : minv b ≤ u ∧ u ≤ maxv b)
    (hv : minv b ≤ v ∧ v ≤ maxv b) (h : pat b.width u = pat b.width v) : u = v := by
  have hspan := maxv_sub_minv b
  have hmod : u % 2 ^ b.width = v % 2 ^ b.width := by
    rw [← pat_toNat_eq_emod, ← pat_toNat_eq_emod, h]
  have hdvd : (2 : Int) ^ b.width ∣ u - v := Int.ModEq.dvd (Eq.symm hmod)
  have habs : |u - v| < 2 ^ b.width := abs_lt.2 ⟨by linarith, by linarith⟩
  exact sub_eq_zero.1 (Int.eq_zero_of_abs_lt_dvd hdvd habs)

theorem val_pat {b : Build} {v : Int} (hlo : minv b ≤ v) (hhi : v ≤ maxv b) :
    val b.signed (pat b.width v) = v :=
  pat_injective_on_range ⟨minv_le_val b _, val_le_maxv b _⟩ ⟨hlo, hhi⟩ (pat_val _ _)

/-- Settles O29: `pat` undoes `val` on every pattern, and `pat` is injective on the value range, so `val`
undoes `pat` there. -/
theorem patternsAndIntegersAgree : Obligations.PatternsAndIntegersAgree := by
  unfold Obligations.PatternsAndIntegersAgree
  exact fun b =>
    ⟨fun r => ⟨val_of_sign_bit, val_of_no_sign_bit, minv_le_val b r, val_le_maxv b r, pat_val _ r⟩,
      fun v hlo hhi => ⟨pat_toNat_eq_emod _ v, val_pat hlo hhi⟩⟩

end Sys2Proof.Machine
end

section
/-! The bounds of a run, and what changes BUSY and DONE (10_state.md R24, R25, R30). -/

namespace Sys2Proof.Machine

/-! ## What holds of the engine in every reachable state -/

/-- What holds of every engine after reset, and is kept by the engine's turn and by every instruction, holds
in every reachable state. -/
theorem engine_invariant_of_reachable {P : ∀ b : Build, Engine b.width → Prop}
    (reset : ∀ (b : Build) (wb wx wm wa : BitVec b.width), P b (Engine.afterReset wb wx wm wa))
    (turn : ∀ (b : Build) (e : Engine b.width), P b e → P b (engineTurn e))
    (instr : ∀ (b : Build) (i : Instr) (e : Engine b.width), P b e → P b (effect b i e))
    {b : Build} {s : State} (h : Reachable b s) : s.build = b ∧ P s.build s.engine := by
  induction h with
  | reset evs => exact ⟨rfl, reset _ _ _ _ _⟩
  | step _ hs ih =>
    obtain ⟨hb, hP⟩ := ih
    rcases step_kinds hs with ⟨_, _, _, _, rfl⟩ | ⟨_, _, _, _, _, _, rfl⟩ | ⟨_, _, _, _, _, rfl⟩
    · exact ⟨hb, turn _ _ hP⟩
    · exact ⟨hb, instr _ _ _ hP⟩
    · exact ⟨hb, reset _ _ _ _ _⟩

/-! ## The run an instruction leaves behind -/

/-- An instruction starts a run, or leaves the phase and the working registers alone. -/
theorem effect_run_cases (b : Build) (i : Instr) (e : Engine b.width) :
    ((∃ high, i = .cmdPowmod high) ∧ e.phase = .idle ∧ operandsAdmitted b e ∧
      effect b i e = e.clearStatus.startRun (val b.signed e.opa) (val b.signed e.opb) (val b.signed e.opn)) ∨
    (¬ ((∃ high, i = .cmdPowmod high) ∧ e.phase = .idle ∧ operandsAdmitted b e) ∧
      sameRun (effect b i e) e) := by
  by_cases hs : (∃ high, i = .cmdPowmod high) ∧ e.phase = .idle ∧ operandsAdmitted b e
  · obtain ⟨⟨high, rfl⟩, hp, ha⟩ := hs
    exact .inl ⟨⟨high, rfl⟩, hp, ha, by simp only [effect, whenIdle_idle hp, acceptPowmod_starts ha]⟩
  · refine .inr ⟨hs, ?_⟩
    rcases effect_cases b i e with ⟨hi, hp, ha, _⟩ | ⟨_, _, _, _, h⟩ | ⟨_, _, h⟩ | ⟨_, _, h⟩ | ⟨_, h⟩ |
      ⟨_, _, h⟩ | ⟨_, _, h⟩ | ⟨_, _, h⟩ | ⟨_, _, h⟩ | ⟨_, _, _, h⟩
    · exact absurd ⟨hi, hp, ha⟩ hs
    all_goals rw [h]; exact ⟨rfl, rfl, rfl, rfl, rfl⟩

/-! ## The bounds of a run (R30) -/

/-- The bounds of R30 hold whenever a run is in progress. -/
def boundedRun (b : Build) (e : Engine b.width) : Prop := e.phase = .run → runBounds b e

theorem boundedRun_of_idle {b : Build} {e : Engine b.width} (h : e.phase = .idle) : boundedRun b e :=
  fun hr => absurd (h.symm.trans hr) nofun

/-- A start with an admitted modulus and a representable exponent meets the bounds. -/
theorem runBounds_startRun {b : Build} (e : Engine b.width) (a : Int) {x n : Int} (hn : 0 < n)
    (hguard : n - 1 ≤ guardLimit b) (hnmax : n ≤ maxv b) (hx : 0 ≤ x) (hxmax : x ≤ maxv b) :
    runBounds b (e.startRun a x n) := by
  have hpow : (maxv b : Int) < 2 ^ b.width := by exact_mod_cast maxv_lt_two_pow b
  have hmod : (pat b.width n).toNat = n.toNat := pat_toNat hn.le (by omega)
  have hexp : (pat b.width x).toNat = x.toNat := pat_toNat hx (by omega)
  have hrem (y : Int) : (pat b.width (fmod y n)).toNat < n.toNat := by
    have h0 := fmod_nonneg hn y
    have h1 := fmod_lt hn y
    rw [pat_toNat h0 (by omega)]
    omega
  have hnm : n.toNat ≤ nmax b := by unfold nmax; omega
  simp only [runBounds, startRun_wmod, startRun_wbase, startRun_wacc, startRun_wexp, hmod, hexp]
  exact ⟨by omega, hnm, hrem a, hrem 1, by omega⟩

theorem runBounds_mulsq {b : Build} {e : Engine b.width} (h : runBounds b e) : runBounds b e.mulsq := by
  obtain ⟨hpos, hmax, _, _, hexp⟩ := h
  simp only [runBounds, mulsq_wmod, mulsq_wbase, mulsq_wacc, mulsq_wexp, squaredBase_toNat hpos,
    multipliedAcc_toNat hpos, shifted_exponent]
  exact ⟨hpos, hmax, Nat.mod_lt _ hpos, Nat.mod_lt _ hpos, by omega⟩

theorem runBounds_sq {b : Build} {e : Engine b.width} (h : runBounds b e) : runBounds b e.sq := by
  obtain ⟨hpos, hmax, _, hacc, hexp⟩ := h
  simp only [runBounds, sq_wmod, sq_wbase, sq_wacc, sq_wexp, squaredBase_toNat hpos, shifted_exponent]
  exact ⟨hpos, hmax, Nat.mod_lt _ hpos, hacc, by omega⟩

theorem boundedRun_engineTurn {b : Build} {e : Engine b.width} (h : boundedRun b e) :
    boundedRun b (engineTurn e) := by
  rcases engineTurn_cases e with ⟨_, ht⟩ | ⟨_, _, ht⟩ | ⟨hp, _, _, ht⟩ | ⟨hp, _, _, ht⟩ <;> rw [ht]
  · exact h
  · exact boundedRun_of_idle rfl
  · exact fun _ => runBounds_mulsq (h hp)
  · exact fun _ => runBounds_sq (h hp)

theorem boundedRun_effect {b : Build} {e : Engine b.width} (i : Instr) (h : boundedRun b e) :
    boundedRun b (effect b i e) := by
  intro hr
  rcases effect_run_cases b i e with ⟨_, _, ⟨hguard, hn, hx⟩, heff⟩ | ⟨_, hp, hbase, hexp, hmod, hacc⟩
  · rw [heff]
    exact runBounds_startRun _ _ hn hguard (val_le_maxv b _) hx (val_le_maxv b _)
  · simpa only [runBounds, hbase, hexp, hmod, hacc] using h (hp.symm.trans hr)

theorem boundedRun_of_reachable {b : Build} {s : State} (h : Reachable b s) :
    s.build = b ∧ boundedRun s.build s.engine :=
  engine_invariant_of_reachable (P := boundedRun) (fun _ _ _ _ _ => boundedRun_of_idle rfl)
    (fun _ _ => boundedRun_engineTurn) (fun _ i _ => boundedRun_effect i) h

/-- Two residues of a modulus of at most `N` have a product of at most `(N - 1)^2`. -/
theorem mul_le_pred_sq_of_lt_of_le {x y m N : Nat} (hx : x < m) (hy : y < m) (hm : m ≤ N) :
    x * y ≤ (N - 1) ^ 2 := by
  rw [sq]
  exact Nat.mul_le_mul (by omega) (by omega)

/-- Settles O32: the bounds hold at reset, at a start and after every engine step, and a product of two
residues of the modulus is at most `GUARD^2`. -/
theorem runBoundsAndProducts : Obligations.RunBoundsAndProducts := by
  unfold Obligations.RunBoundsAndProducts
  intro b s hs hr
  obtain ⟨rfl, hb⟩ := boundedRun_of_reachable hs
  obtain ⟨hpos, hmax, hbase, hacc, hexp⟩ := hb hr
  exact ⟨hpos, hmax, hbase, hacc, hexp, mul_le_pred_sq_of_lt_of_le hacc hbase hmax,
    mul_le_pred_sq_of_lt_of_le hbase hbase hmax, rfl, sq (guardLimit s.build) ▸ guard_mul_guard_le_maxv s.build,
    maxv_lt_two_pow s.build⟩

/-! ## BUSY (R24) -/

@[simp] theorem busy_eq_true_iff {w : Nat} (e : Engine w) : busy e = true ↔ e.phase = .run := by
  unfold busy; cases e.phase <;> simp

@[simp] theorem busy_eq_false_iff {w : Nat} (e : Engine w) : busy e = false ↔ e.phase = .idle := by
  unfold busy; cases e.phase <;> simp

theorem phase_ne_run_iff {p : Phase} : p ≠ .run ↔ p = .idle := by cases p <;> simp

theorem engineTurn_phase_run_iff {w : Nat} (e : Engine w) :
    (engineTurn e).phase = .run ↔ e.phase = .run ∧ e.wexp.toNat ≠ 0 := by
  rcases engineTurn_cases e with ⟨hp, ht⟩ | ⟨hp, hx, ht⟩ | ⟨hp, hx, _, ht⟩ | ⟨hp, hx, _, ht⟩
  · simp [ht, hp]
  all_goals simp [ht, hp, hx]

theorem effect_phase_run_iff (b : Build) (i : Instr) (e : Engine b.width) :
    (effect b i e).phase = .run ↔
      ((∃ high, i = .cmdPowmod high) ∧ e.phase = .idle ∧ operandsAdmitted b e) ∨ e.phase = .run := by
  rcases effect_run_cases b i e with ⟨hi, hp, ha, heff⟩ | ⟨hn, hp, _⟩
  · rw [heff]; exact iff_of_true rfl (.inl ⟨hi, hp, ha⟩)
  · rw [hp]; exact (or_iff_right hn).symm

/-- A run is in progress after a step that starts it, and after every step of a run but its FINISH and a
reset. -/
theorem step_phase_run_iff {s t : State} (h : step s = .next t) :
    t.engine.phase = .run ↔ startsRun s ∨ (s.engine.phase = .run ∧ ¬ finishes s ∧ ¬ nextIsReset s) := by
  rcases step_kinds h with ⟨_, he, hr, hi, rfl⟩ | ⟨x, _, _, he, hr, hi, rfl⟩ | ⟨_, _, hr, _, hi, rfl⟩
  · have hstart : ¬ startsRun s := fun ⟨⟨⟨_, hx⟩, _⟩, _⟩ => hi _ hx
    have hfin : finishes s ↔ s.engine.phase = .run ∧ s.engine.wexp.toNat = 0 := and_iff_right he
    simp only [engineTurn_phase_run_iff, hstart, hfin, hr]
    tauto
  · have hfin : ¬ finishes s := fun hf => he hf.1
    have hstart : startsRun s ↔ (∃ high, decode x = .cmdPowmod high) ∧ s.engine.phase = .idle ∧
        operandsAdmitted s.build s.engine := by
      simp only [startsRun, acceptsPowmod, hi, and_assoc, eq_comm]
    simp only [effect_phase_run_iff, hstart, hfin, hr, not_false_eq_true, and_true]
  · have hstart : ¬ startsRun s := fun ⟨⟨⟨_, hx⟩, _⟩, _⟩ => hi _ hx
    exact iff_of_false nofun (not_or_intro hstart fun ⟨_, _, hnr⟩ => hnr hr)

theorem not_startsRun_of_run {s : State} (hr : s.engine.phase = .run) : ¬ startsRun s :=
  fun ⟨⟨_, hidle⟩, _⟩ => absurd (hidle.symm.trans hr) nofun

/-- Settles O50: the phase after a step is RUN exactly after a start, or during a run that neither ends nor
is reset. -/
theorem busyChangesOnlyAtStartFinishReset : Obligations.BusyChangesOnlyAtStartFinishReset := by
  unfold Obligations.BusyChangesOnlyAtStartFinishReset
  intro s t h
  have hrun := step_phase_run_iff h
  rw [busy_eq_false_iff, busy_eq_true_iff, busy_eq_true_iff, busy_eq_false_iff, ← phase_ne_run_iff,
    ← phase_ne_run_iff]
  refine ⟨Iff.rfl, ⟨fun ⟨hs, ht⟩ => ?_, fun hs => ?_⟩, ⟨fun ⟨hs, ht⟩ => ?_, ?_⟩⟩
  · exact (hrun.1 ht).resolve_right fun ⟨hr, _⟩ => hs hr
  · exact ⟨fun hr => not_startsRun_of_run hr hs, hrun.2 (.inl hs)⟩
  · by_contra hend
    rw [not_or] at hend
    exact ht (hrun.2 (.inr ⟨hs, hend.1, fun hreset => hend.2 ⟨hreset, hs⟩⟩))
  · rintro (hf | ⟨hreset, hr⟩)
    · have hr := hf.2.1
      exact ⟨hr, fun ht => (hrun.1 ht).elim (not_startsRun_of_run hr) fun ⟨_, hnf, _⟩ => hnf hf⟩
    · exact ⟨hr, fun ht => (hrun.1 ht).elim (not_startsRun_of_run hr) fun ⟨_, _, hnr⟩ => hnr hreset⟩

/-! ## DONE (R25) -/

theorem engineTurn_done_iff {w : Nat} (e : Engine w) :
    (engineTurn e).done = true ↔ (e.phase = .run ∧ e.wexp.toNat = 0) ∨ e.done = true := by
  rcases engineTurn_cases e with ⟨hp, ht⟩ | ⟨hp, hx, ht⟩ | ⟨hp, hx, _, ht⟩ | ⟨hp, hx, _, ht⟩
  · simp [ht, hp]
  all_goals simp [ht, hp, hx]

/-- An accepted POWMOD clears DONE, whether it starts a run or is refused. -/
theorem acceptPowmod_done (b : Build) (e : Engine b.width) : (acceptPowmod b e).done = false := by
  by_cases ha : operandsAdmitted b e
  · rw [acceptPowmod_starts ha]; rfl
  · obtain ⟨_, h⟩ := acceptPowmod_refuses ha
    rw [h]; rfl

/-- DONE stays set through every instruction but an accepted POWMOD and an accepted CLEAR. -/
theorem effect_done_iff (b : Build) (i : Instr) (e : Engine b.width) :
    (effect b i e).done = true ↔ e.done = true ∧
      ¬ ((∃ high, i = .cmdPowmod high) ∧ e.phase = .idle) ∧
      ¬ ((∃ high, i = .cmdClear high) ∧ e.phase = .idle) := by
  cases i with
  | cmdPowmod high =>
    cases hp : e.phase
    · simp [effect, whenIdle_idle hp, acceptPowmod_done]
    · simp [effect, whenIdle_run hp]
  | cmdClear high =>
    cases hp : e.phase
    · simp [effect, whenIdle_idle hp]
    · simp [effect, whenIdle_run hp]
  | _ => simp [effect]

/-- A FINISH accepts no command and is no reset. -/
theorem not_accepts_or_reset_of_finishes {s : State} (hf : finishes s) :
    ¬ (acceptsPowmod s ∨ acceptsClear s ∨ nextIsReset s) := by
  obtain ⟨heng, hrun, _⟩ := hf
  rintro (⟨_, hidle⟩ | ⟨_, hidle⟩ | ⟨_, _, hreset⟩)
  · exact absurd (hidle.symm.trans hrun) nofun
  · exact absurd (hidle.symm.trans hrun) nofun
  · simp [nextIsEngine, hreset] at heng

/-- DONE is set after a FINISH, and where it was set before a step that does not clear it. -/
theorem step_done_iff {s t : State} (h : step s = .next t) :
    t.engine.done = true ↔ finishes s ∨
      (s.engine.done = true ∧ ¬ (acceptsPowmod s ∨ acceptsClear s ∨ nextIsReset s)) := by
  rcases step_kinds h with ⟨_, he, hr, hi, rfl⟩ | ⟨x, _, _, he, hr, hi, rfl⟩ | ⟨_, _, hr, he, hi, rfl⟩
  · have hfin : finishes s ↔ s.engine.phase = .run ∧ s.engine.wexp.toNat = 0 := and_iff_right he
    simp [engineTurn_done_iff, hfin, acceptsPowmod, acceptsClear, hi, hr]
  · have hfin : ¬ finishes s := fun hf => he hf.1
    simp [effect_done_iff, hfin, acceptsPowmod, acceptsClear, hi, hr, @eq_comm _ _ (decode x)]
  · have hfin : ¬ finishes s := fun hf => he hf.1
    exact iff_of_false nofun (not_or_intro hfin fun ⟨_, hkept⟩ => hkept (.inr (.inr hr)))

/-- A rejected command raises an error and changes nothing else. -/
theorem step_of_rejectsCommand {s t : State} (h : step s = .next t) (hrej : rejectsCommand s) :
    ∃ k rest, t = { s with engine := s.engine.raise k, events := rest } := by
  rcases hrej with ⟨_, _, x, rest, he, hx⟩ | ⟨⟨_, ⟨x, rest, he, hx⟩ | ⟨x, rest, he, hx⟩⟩, hp⟩ <;>
    rw [step_host he, hx, exec_eq] at h <;> injection h with h
  · exact ⟨.illegalCmd, rest, h.symm⟩
  · exact ⟨.busy, rest, by rw [← h]; simp [effect, answered, whenIdle_run hp]⟩
  · exact ⟨.busy, rest, by rw [← h]; simp [effect, answered, whenIdle_run hp]⟩

/-- Settles O51: DONE after a step is what `step_done_iff` says, and a rejected command only raises an
error. -/
theorem doneChangesOnlyAsSpecified : Obligations.DoneChangesOnlyAsSpecified := by
  unfold Obligations.DoneChangesOnlyAsSpecified
  intro s t h
  have hdone := step_done_iff h
  refine ⟨fun hf => hdone.2 (.inl hf), fun ht hs => ?_, fun hc => ?_, fun hs ht => ?_, fun hrej => ?_⟩
  · exact (hdone.1 ht).resolve_right fun ⟨hd, _⟩ => Bool.eq_false_iff.1 hs hd
  · exact Bool.eq_false_iff.2 fun ht =>
      (hdone.1 ht).elim (fun hf => not_accepts_or_reset_of_finishes hf hc) fun ⟨_, hkept⟩ => hkept hc
  · exact by_contra fun hkept => Bool.eq_false_iff.1 ht (hdone.2 (.inr ⟨hs, hkept⟩))
  · obtain ⟨_, _, rfl⟩ := step_of_rejectsCommand h hrej
    rfl

end Sys2Proof.Machine
end

section
/-! Register access: what a read answers, and what the register writes that are no commands store
(40_host_access.md R100 to R108). -/

namespace Sys2Proof.Machine

/-! ## The transactions that spell reads and register writes (30_encoding.md R72, R75) -/

theorem spells_read {bw : Nat} (a : Index) : spells (Txn.read (bw := bw) a) 0x000 0x100 (.rd a) := by
  have hkey : ∀ a : Index, (0#1 ++ a ++ 0#4 : BitVec (1 + 4 + 4)) &&& 0x100 = 0x000 := by decide
  exact ⟨hkey a, decode_read a⟩

/-- The mask 0x1F0 keeps `we` and the index of a write and drops the nibble of its data. -/
theorem write_key_and_mask {bw : Nat} (a : Index) (data : BitVec bw) :
    (Txn.write a data).key &&& 0x1F0 = (1#1 ++ a ++ 0#4 : BitVec (1 + 4 + 4)) := by
  have hkey : ∀ (a : Index) (n : BitVec 4),
      (1#1 ++ a ++ n : BitVec (1 + 4 + 4)) &&& 0x1F0 = (1#1 ++ a ++ 0#4 : BitVec (1 + 4 + 4)) := by decide
  exact hkey a (data.setWidth 4)

/-- A write to `a` is accepted by the row with mask 0x1F0 whose pattern holds `we = 1` and `a`. -/
theorem spells_write {bw : Nat} {a : Index} {data : BitVec bw} {pattern : BitVec 9} {i : Instr}
    (hpattern : (1#1 ++ a ++ 0#4 : BitVec (1 + 4 + 4)) = pattern) (hi : decodeWrite a data.toNat = i) :
    spells (.write a data) pattern 0x1F0 i :=
  ⟨(write_key_and_mask a data).trans hpattern, hi⟩

theorem spells_write_reserved {bw : Nat} {a : Index} (h : 8 ≤ a.toNat) (data : BitVec bw) :
    spells (.write a data) 0x180 0x180 (.wrRsvd a data.toNat) := by
  have hkey : ∀ (a : Index) (n : BitVec 4), 8 ≤ a.toNat →
      (1#1 ++ a ++ n : BitVec (1 + 4 + 4)) &&& 0x180 = 0x180 := by decide
  exact ⟨hkey a (data.setWidth 4) h, decodeWrite_reserved h data.toNat⟩

/-! ## The meaning of reads and register writes -/

theorem exec_rd (a : Index) (s : State) :
    exec (.rd a) s = .next (s.respond (readReg s.build s.engine a)) := rfl

theorem exec_wrIe (d : Nat) (s : State) :
    exec (.wrIe d) s = .next (s.withEngine (s.engine.setIe (keepIe d))) := rfl

theorem exec_wrOpa (d : Nat) (s : State) :
    exec (.wrOpa d) s = .next (s.withEngine (s.engine.setOpa (keepOperand s.build.width d))) := rfl

theorem exec_wrOpb (d : Nat) (s : State) :
    exec (.wrOpb d) s = .next (s.withEngine (s.engine.setOpb (keepOperand s.build.width d))) := rfl

theorem exec_wrOpn (d : Nat) (s : State) :
    exec (.wrOpn d) s = .next (s.withEngine (s.engine.setOpn (keepOperand s.build.width d))) := rfl

theorem exec_wrId (d : Nat) (s : State) : exec (.wrId d) s = .next s := rfl

theorem exec_wrStatus (d : Nat) (s : State) : exec (.wrStatus d) s = .next s := rfl

theorem exec_wrResult (d : Nat) (s : State) : exec (.wrResult d) s = .next s := rfl

theorem exec_wrRsvd (a : Index) (d : Nat) (s : State) : exec (.wrRsvd a d) s = .next s := rfl

/-! ## The register map (10_state.md R20, 40_host_access.md R100) -/

theorem busy_toNat {w : Nat} (e : Engine w) : (busy e).toNat = if e.phase = .run then 1 else 0 := by
  unfold busy; cases e.phase <;> rfl

section RegisterMap
variable (b : Build) (e : Engine b.width)

theorem readReg_id :
    (readReg b e 0x0).toNat = b.width + 2 ^ 16 * b.signed.toNat + 2 ^ 24 * 0x01 :=
  (zext_toNat (thirtyTwo_le_bw b) _).trans (idWord_toNat b)

theorem readReg_cmd : (readReg b e 0x1).toNat = 0 := BitVec.toNat_zero

/-- STATUS, field by field (10_state.md R23). -/
theorem readReg_status :
    (readReg b e 0x2).toNat = (if e.phase = .run then 1 else 0) + 2 * e.done.toNat + 4 * e.err.toNat +
      8 * (e.ie && (e.done || e.err)).toNat + 16 * e.errcode.toNat := by
  have hfit : 8 ≤ b.bw := le_trans (by decide) (thirtyTwo_le_bw b)
  rw [← busy_toNat]
  exact (zext_toNat hfit _).trans (statusWord_toNat e)

theorem readReg_ie : (readReg b e 0x3).toNat = e.ie.toNat :=
  (zext_toNat (le_trans (by decide) (thirtyTwo_le_bw b)) _).trans (BitVec.toNat_ofBool e.ie)

theorem readReg_opa : (readReg b e 0x4).toNat = e.opa.toNat := zext_toNat (width_le_bw b) _

theorem readReg_opb : (readReg b e 0x5).toNat = e.opb.toNat := zext_toNat (width_le_bw b) _

theorem readReg_opn : (readReg b e 0x6).toNat = e.opn.toNat := zext_toNat (width_le_bw b) _

theorem readReg_result : (readReg b e 0x7).toNat = e.result.toNat := zext_toNat (width_le_bw b) _

end RegisterMap

/-- Settles O10: RD answers `readReg`, whose value at each index is the matching `readReg_` lemma. -/
theorem readAnswersRegisterMap : Obligations.ReadAnswersRegisterMap := by
  unfold Obligations.ReadAnswersRegisterMap
  intro s a
  refine ⟨spells_read a, readReg s.build s.engine a, exec_rd a s, ?_, ?_, ?_, ?_, ?_, ?_, ?_, ?_, ?_⟩
  · rintro rfl; exact readReg_id _ _
  · rintro rfl; exact readReg_cmd _ _
  · rintro rfl; exact readReg_status _ _
  · rintro rfl; exact readReg_ie _ _
  · rintro rfl; exact readReg_opa _ _
  · rintro rfl; exact readReg_opb _ _
  · rintro rfl; exact readReg_opn _ _
  · rintro rfl; exact readReg_result _ _
  · exact fun h => (congrArg BitVec.toNat (readReg_reserved _ _ h)).trans BitVec.toNat_zero

/-! ## The register writes (40_host_access.md R101 to R108) -/

theorem keepIe_eq_true_iff (d : Nat) : keepIe d = true ↔ d % 2 = 1 := by
  rw [keepIe_eq, decide_eq_true_iff]

/-- The interrupt level after a store to IE: the new enable bit against the old status (R101, R170). -/
theorem irq_setIe_iff {w : Nat} (e : Engine w) (v : Bool) :
    irq (e.setIe v) = true ↔ v = true ∧ (e.done = true ∨ e.err = true) := by
  simp [irq]

/-- Settles O12: WR.IE is `setIe` of data bit 0, which leaves every other field. -/
theorem writeIeStoresBitZero : Obligations.WriteIeStoresBitZero := by
  unfold Obligations.WriteIeStoresBitZero
  refine fun s => ⟨fun data => spells_write rfl rfl, fun d => ⟨_, exec_wrIe d s, ?_, ?_, ?_⟩⟩
  · rw [setIe_ie, keepIe_eq_true_iff]
  · rw [irq_setIe_iff, keepIe_eq_true_iff]
  · simp [sameStatus, sameRun]

/-- Settles O13: each operand write is a store of `data mod 2^W`, which leaves every other field. -/
theorem writeOperandKeepsLowBits : Obligations.WriteOperandKeepsLowBits := by
  unfold Obligations.WriteOperandKeepsLowBits
  refine fun s => ⟨fun data => ⟨spells_write rfl rfl, spells_write rfl rfl, spells_write rfl rfl⟩,
    fun d => ⟨⟨_, exec_wrOpa d s, keepOperand_toNat _ d, ?_⟩, ⟨_, exec_wrOpb d s, keepOperand_toNat _ d, ?_⟩,
      ⟨_, exec_wrOpn d s, keepOperand_toNat _ d, ?_⟩⟩⟩
  all_goals simp [sameStatus, sameRun]

/-- Settles O15: the four writes decode to instructions whose meaning is the unchanged state. -/
theorem readOnlyWritesChangeNothing : Obligations.ReadOnlyWritesChangeNothing := by
  unfold Obligations.ReadOnlyWritesChangeNothing
  exact fun s =>
    ⟨fun data => ⟨spells_write rfl rfl, spells_write rfl rfl, spells_write rfl rfl,
        fun _ h => spells_write_reserved h data⟩,
      fun d a => ⟨exec_wrId d s, exec_wrStatus d s, exec_wrResult d s, exec_wrRsvd a d s⟩⟩

end Sys2Proof.Machine
end

section
/-! The commands: their encodings, the decode order, and what an accepted POWMOD does (41_commands.md). -/

namespace Sys2Proof.Machine

/-! ## The transactions that spell the commands (30_encoding.md R73, R75) -/

section Spelling
variable {bw : Nat} {data : BitVec bw}

/-- The command of a write to CMD, by its data (30_encoding.md R73). -/
theorem decode_command (data : BitVec bw) : decode (.write 0x1 data) = decodeCommand data.toNat := rfl

theorem decode_command_nop (h : data.toNat % 16 = 0) : decode (.write 0x1 data) = .cmdNop (data.toNat / 16) := by
  rw [decode_command]; simp [decodeCommand, h]

theorem decode_command_powmod (h : data.toNat % 16 = 1) :
    decode (.write 0x1 data) = .cmdPowmod (data.toNat / 16) := by
  rw [decode_command]; simp [decodeCommand, h]

theorem decode_command_clear (h : data.toNat % 16 = 2) :
    decode (.write 0x1 data) = .cmdClear (data.toNat / 16) := by
  rw [decode_command]; simp [decodeCommand, h]

theorem decode_command_reserved (h : 3 ≤ data.toNat % 16) :
    decode (.write 0x1 data) = .cmdRsvd (data.setWidth 4) (data.toNat / 16) := by
  rw [← BitVec.ofNat_toNat, decode_command]
  rcases decodeCommand_cases data.toNat with ⟨h', _⟩ | ⟨h', _⟩ | ⟨h', _⟩ | ⟨_, hd⟩
  · omega
  · omega
  · omega
  · exact hd

/-- The key of a command ends in its opcode (30_encoding.md R72, R73). -/
theorem command_key_of_opcode {k : Nat} (h : data.toNat % 16 = k) :
    (Txn.write 0x1 data).key = (1#1 ++ 0x1#4 ++ BitVec.ofNat 4 k : BitVec (1 + 4 + 4)) := by
  have hopcode : data.setWidth 4 = BitVec.ofNat 4 k := by
    apply BitVec.eq_of_toNat_eq
    simp [← h]
  rw [← hopcode]
  rfl

/-- The three rows of CMD.RSVD accept the opcodes 0x3, 0x4 to 0x7 and 0x8 to 0xF. -/
theorem reserved_command_row (h : 3 ≤ data.toNat % 16) :
    (Txn.write 0x1 data).key &&& 0x1FF = 0x113 ∨ (Txn.write 0x1 data).key &&& 0x1FC = 0x114 ∨
      (Txn.write 0x1 data).key &&& 0x1F8 = 0x118 := by
  have hrow : ∀ opcode : BitVec 4, 3 ≤ opcode.toNat →
      (1#1 ++ 0x1#4 ++ opcode : BitVec (1 + 4 + 4)) &&& 0x1FF = 0x113 ∨
      (1#1 ++ 0x1#4 ++ opcode : BitVec (1 + 4 + 4)) &&& 0x1FC = 0x114 ∨
      (1#1 ++ 0x1#4 ++ opcode : BitVec (1 + 4 + 4)) &&& 0x1F8 = 0x118 := by decide
  exact hrow (data.setWidth 4) (by simpa using h)

theorem spells_nop (h : data.toNat % 16 = 0) :
    spells (.write 0x1 data) 0x110 0x1FF (.cmdNop (data.toNat / 16)) :=
  ⟨by rw [command_key_of_opcode h]; decide, decode_command_nop h⟩

theorem spells_powmod (h : data.toNat % 16 = 1) :
    spells (.write 0x1 data) 0x111 0x1FF (.cmdPowmod (data.toNat / 16)) :=
  ⟨by rw [command_key_of_opcode h]; decide, decode_command_powmod h⟩

theorem spells_clear (h : data.toNat % 16 = 2) :
    spells (.write 0x1 data) 0x112 0x1FF (.cmdClear (data.toNat / 16)) :=
  ⟨by rw [command_key_of_opcode h]; decide, decode_command_clear h⟩

end Spelling

/-! ## The meaning of the commands -/

section Meaning
variable (high : Nat) {s : State}

theorem exec_cmdNop (s : State) : exec (.cmdNop high) s = .next s := rfl

theorem exec_cmdRsvd (opcode : BitVec 4) (s : State) :
    exec (.cmdRsvd opcode high) s = .next (s.withEngine (s.engine.raise .illegalCmd)) := rfl

theorem exec_cmdPowmod (s : State) :
    exec (.cmdPowmod high) s = .next (s.withEngine (whenIdle s.engine (acceptPowmod s.build s.engine))) := rfl

theorem exec_cmdClear (s : State) :
    exec (.cmdClear high) s = .next (s.withEngine (whenIdle s.engine s.engine.clearStatus)) := rfl

theorem exec_cmdPowmod_idle (h : s.engine.phase = .idle) :
    exec (.cmdPowmod high) s = .next (s.withEngine (acceptPowmod s.build s.engine)) := by
  rw [exec_cmdPowmod, whenIdle_idle h]

theorem exec_cmdPowmod_run (h : s.engine.phase = .run) :
    exec (.cmdPowmod high) s = .next (s.withEngine (s.engine.raise .busy)) := by
  rw [exec_cmdPowmod, whenIdle_run h]

theorem exec_cmdClear_idle (h : s.engine.phase = .idle) :
    exec (.cmdClear high) s = .next (s.withEngine s.engine.clearStatus) := by
  rw [exec_cmdClear, whenIdle_idle h]

theorem exec_cmdClear_run (h : s.engine.phase = .run) :
    exec (.cmdClear high) s = .next (s.withEngine (s.engine.raise .busy)) := by
  rw [exec_cmdClear, whenIdle_run h]

end Meaning

/-- Settles O17: the opcode alone fixes the instruction, and only POWMOD and CLEAR look at the phase. -/
theorem commandDecodeOrder : Obligations.CommandDecodeOrder := by
  unfold Obligations.CommandDecodeOrder
  refine fun s d => ⟨fun h => ?_, fun h => ?_, fun h hrun => ?_, fun h hidle => ?_, fun h hidle => ?_⟩
  · rw [decode_command_nop h, exec_cmdNop]
  · rw [decode_command_reserved h, exec_cmdRsvd]
  · rcases h with h | h
    · rw [decode_command_powmod h, exec_cmdPowmod_run _ hrun]
    · rw [decode_command_clear h, exec_cmdClear_run _ hrun]
  · rw [decode_command_powmod h, exec_cmdPowmod_idle _ hidle]
  · rw [decode_command_clear h, exec_cmdClear_idle _ hidle]

/-- Settles O16: opcode 0 spells NOP, whose meaning is the unchanged state. -/
theorem nopChangesNothing : Obligations.NopChangesNothing := by
  unfold Obligations.NopChangesNothing
  exact fun s high => ⟨fun _ => spells_nop, exec_cmdNop high s⟩

/-! ## Frames of the status operations -/

section Frames
variable {w : Nat} (e : Engine w)

theorem raise_sameOperands (k : ErrorKind) : sameOperands (e.raise k) e := ⟨rfl, rfl, rfl, rfl⟩

theorem raise_sameRun (k : ErrorKind) : sameRun (e.raise k) e := ⟨rfl, rfl, rfl, rfl, rfl⟩

theorem clearStatus_sameOperands : sameOperands e.clearStatus e := ⟨rfl, rfl, rfl, rfl⟩

theorem clearStatus_sameRun : sameRun e.clearStatus e := ⟨rfl, rfl, rfl, rfl, rfl⟩

theorem irq_clearStatus : irq e.clearStatus = false := by simp [irq]

end Frames

/-- Settles O19: a reserved opcode meets one of the three rows of RSVD, and its meaning is to raise
ILLEGAL_CMD. -/
theorem reservedOpcodeRaisesIllegalCmd : Obligations.ReservedOpcodeRaisesIllegalCmd := by
  unfold Obligations.ReservedOpcodeRaisesIllegalCmd
  refine fun s opcode high => ⟨fun data h => ⟨_, rfl, ?_⟩, _, exec_cmdRsvd high opcode s, rfl, rfl, rfl, rfl,
    raise_sameOperands _ _, raise_sameRun _ _⟩
  have hdecode := decode_command_reserved h
  exact (reserved_command_row h).imp (⟨·, hdecode⟩) (Or.imp (⟨·, hdecode⟩) (⟨·, hdecode⟩))

/-- Settles O21: CLEAR while IDLE is `clearStatus`; during a run it is rejected. -/
theorem clearResetsTheStatus : Obligations.ClearResetsTheStatus := by
  unfold Obligations.ClearResetsTheStatus
  exact fun s high => ⟨fun _ => spells_clear,
    fun hidle => ⟨_, exec_cmdClear_idle high hidle, rfl, rfl, rfl, irq_clearStatus _, rfl,
      clearStatus_sameOperands _, clearStatus_sameRun _⟩,
    exec_cmdClear_run high⟩

/-! ## An accepted POWMOD (41_commands.md R122) -/

/-- An accepted POWMOD keeps RESULT, IE and the operands, whether it starts a run or is refused. -/
theorem acceptPowmod_keeps (b : Build) (e : Engine b.width) :
    (acceptPowmod b e).result = e.result ∧ sameOperands (acceptPowmod b e) e := by
  by_cases ha : operandsAdmitted b e
  · rw [acceptPowmod_starts ha]
    exact ⟨rfl, rfl, rfl, rfl, rfl⟩
  · obtain ⟨_, h⟩ := acceptPowmod_refuses ha
    rw [h]
    exact ⟨rfl, rfl, rfl, rfl, rfl⟩

/-- A refusal touches the status alone: it starts nothing. -/
theorem refusal_sameRun {w : Nat} (e : Engine w) (k : ErrorKind) : sameRun (e.clearStatus.raise k) e :=
  ⟨rfl, rfl, rfl, rfl, rfl⟩

/-- OVERFLOW is the outcome of an accepted POWMOD exactly when the guard refuses the modulus
(60_exceptions.md R162). -/
theorem acceptPowmod_errcode_overflow_iff (b : Build) (e : Engine b.width) :
    (acceptPowmod b e).errcode = 1 ↔ val b.signed e.opn - 1 > guardLimit b := by
  rcases acceptPowmod_cases b e with ⟨hguard, h⟩ | ⟨hn, h⟩ | ⟨hguard, _, _, h⟩ | ⟨⟨hguard, _, _⟩, h⟩ <;> rw [h]
  · exact iff_of_true rfl hguard
  · exact iff_of_false nofun (by omega)
  · exact iff_of_false nofun (not_lt_of_ge hguard)
  · exact iff_of_false nofun (not_lt_of_ge hguard)

/-- Settles O24: the guard is checked first, and a refusal keeps all but the status. -/
theorem guardRefusesWithOverflow : Obligations.GuardRefusesWithOverflow := by
  unfold Obligations.GuardRefusesWithOverflow
  intro s high hidle
  obtain ⟨hresult, hoperands⟩ := acceptPowmod_keeps s.build s.engine
  refine ⟨_, exec_cmdPowmod_idle high hidle, acceptPowmod_errcode_overflow_iff _ _, guardLimit_lt_pred_iff _ _,
    fun hguard => ⟨?_, acceptPowmod_done _ _, hresult, hoperands, ?_⟩⟩ <;> rw [acceptPowmod_overflow hguard]
  · rfl
  · exact refusal_sameRun _ _

/-- A pattern that denotes a negative integer is read as SIGNED. -/
theorem signed_of_val_neg {sg : Bool} {w : Nat} {r : BitVec w} (h : val sg r < 0) : sg = true := by
  cases sg
  · rw [val_unsigned] at h; omega
  · rfl

/-- A non-negative integer up to MAXV is its own pattern. -/
theorem pat_toNat_of_le_maxv {b : Build} {v : Int} (hlo : 0 ≤ v) (hhi : v ≤ maxv b) :
    ((pat b.width v).toNat : Int) = v := by
  have hpow : (maxv b : Int) < 2 ^ b.width := by exact_mod_cast maxv_lt_two_pow b
  rw [pat_toNat_eq_emod, Int.emod_eq_of_lt hlo (lt_of_le_of_lt hhi hpow)]

theorem pat_fmod_toNat {b : Build} {n : Int} (hn : 0 < n) (hmax : n ≤ maxv b) (x : Int) :
    ((pat b.width (fmod x n)).toNat : Int) = fmod x n :=
  pat_toNat_of_le_maxv (fmod_nonneg hn x) ((fmod_lt hn x).le.trans hmax)

/-- The working registers after a start hold the modulus, the reduced base, the exponent and `fmod(1, n)`
as exact integers, when the modulus and the exponent are representable (41_commands.md R122). -/
theorem startRun_loads {b : Build} (e : Engine b.width) (a : Int) {x n : Int} (hn : 0 < n) (hnmax : n ≤ maxv b)
    (hx : 0 ≤ x) (hxmax : x ≤ maxv b) :
    ((e.startRun a x n).wmod.toNat : Int) = n ∧ ((e.startRun a x n).wbase.toNat : Int) = fmod a n ∧
      ((e.startRun a x n).wexp.toNat : Int) = x ∧ ((e.startRun a x n).wacc.toNat : Int) = fmod 1 n :=
  ⟨pat_toNat_of_le_maxv hn.le hnmax, pat_fmod_toNat hn hnmax a, pat_toNat_of_le_maxv hx hxmax,
    pat_fmod_toNat hn hnmax 1⟩

/-- Settles O23: acceptance clears the outcome and keeps RESULT and the operands in every case; the cases of
`acceptPowmod` are the three refusals and the start. -/
theorem powmodChecksThenStarts : Obligations.PowmodChecksThenStarts := by
  unfold Obligations.PowmodChecksThenStarts
  refine fun s high => ⟨fun _ => spells_powmod, fun hidle => ?_⟩
  obtain ⟨hresult, hoperands⟩ := acceptPowmod_keeps s.build s.engine
  refine ⟨_, exec_cmdPowmod_idle high hidle, acceptPowmod_done _ _, hresult, hoperands, ?_⟩
  rcases acceptPowmod_cases s.build s.engine with
    ⟨hguard, h⟩ | ⟨hn, h⟩ | ⟨hguard, hn, hx, h⟩ | ⟨hadmitted, h⟩ <;> rw [h]
  · exact .inl ⟨hguard, rfl, rfl, refusal_sameRun _ _⟩
  · exact .inr (.inl ⟨by omega, hn, rfl, rfl, refusal_sameRun _ _⟩)
  · exact .inr (.inr (.inl ⟨hguard, hn, hx, signed_of_val_neg hx, rfl, rfl, refusal_sameRun _ _⟩))
  · have ⟨_, hn, hx⟩ := hadmitted
    exact .inr (.inr (.inr ⟨hadmitted, rfl, rfl, rfl, rfl,
      startRun_loads _ _ hn (val_le_maxv _ _) hx (val_le_maxv _ _)⟩))

end Sys2Proof.Machine
end

section
/-! The engine's steps, the loop invariant they keep, the length of a run, and the value it ends with under every
schedule (42_engine.md R141 to R146). -/

namespace Sys2Proof.Machine

/-! ## The single steps (R141 to R143) -/

section Selection
variable {s : State} {rest : List (Event s.build.bw)}

theorem step_finish (he : s.events = .engine :: rest) (hp : s.engine.phase = .run)
    (hx : s.engine.wexp.toNat = 0) : step s = .next { s with engine := s.engine.finish, events := rest } := by
  rw [step_engine he, engineTurn_last hp hx]

theorem step_mulsq (he : s.events = .engine :: rest) (hp : s.engine.phase = .run)
    (hodd : s.engine.wexp.toNat % 2 = 1) : step s = .next { s with engine := s.engine.mulsq, events := rest } := by
  rw [step_engine he, engineTurn_run hp, runStep, if_neg (by omega), if_pos hodd]

theorem step_sq (he : s.events = .engine :: rest) (hp : s.engine.phase = .run) (hx : s.engine.wexp.toNat ≠ 0)
    (heven : s.engine.wexp.toNat % 2 = 0) : step s = .next { s with engine := s.engine.sq, events := rest } := by
  rw [step_engine he, engineTurn_run hp, runStep, if_neg hx, if_neg (by omega)]

end Selection

/-- After FINISH the interrupt level is the enable bit, because DONE is set. -/
theorem irq_finish {w : Nat} (e : Engine w) : irq e.finish = e.ie := by simp [irq]

/-- Settles O34: the step is `finish`, which writes RESULT, DONE and the phase. -/
theorem finishCompletesTheRun : Obligations.FinishCompletesTheRun := by
  unfold Obligations.FinishCompletesTheRun
  exact fun s rest he hp hx => ⟨_, step_finish he hp hx, rfl, rfl, rfl, irq_finish _, rfl, rfl,
    ⟨rfl, rfl, rfl, rfl⟩, rfl, rfl, rfl, rfl⟩

/-- Settles O35: the step is `mulsq`, whose products are remainders by a modulus that is not 0. -/
theorem mulsqMultipliesAndSquares : Obligations.MulsqMultipliesAndSquares := by
  unfold Obligations.MulsqMultipliesAndSquares
  exact fun s rest he hp hodd hmod => ⟨_, step_mulsq he hp hodd, multipliedAcc_toNat hmod,
    squaredBase_toNat hmod, shifted_exponent _, rfl, hp, rfl, ⟨rfl, rfl, rfl, rfl⟩, rfl, rfl, rfl⟩

/-- Settles O36: the step is `sq`, whose square is the remainder by a modulus that is not 0. -/
theorem sqSquaresTheBase : Obligations.SqSquaresTheBase := by
  unfold Obligations.SqSquaresTheBase
  exact fun s rest he hp hx heven hmod => ⟨_, step_sq he hp hx heven, rfl, squaredBase_toNat hmod,
    shifted_exponent _, rfl, hp, rfl, ⟨rfl, rfl, rfl, rfl⟩, rfl, rfl, rfl⟩

/-! ## The loop invariant (R144) -/

/-- The remainder of a product with a power depends on the remainders of the factor and of the base only. -/
theorem fmod_mul_pow {m : Int} (h : 0 < m) (x y : Int) (k : Nat) :
    fmod (fmod x m * fmod y m ^ k) m = fmod (x * y ^ k) m := by
  have hx : fmod (fmod x m) m = fmod x m := by simpa only [pow_one] using fmod_pow h x 1
  exact fmod_mul_congr h hx (fmod_pow h y k)

theorem fmod_natCast {m : Nat} (h : 0 < m) (x : Nat) : fmod x m = ((x % m : Nat) : Int) := by
  rw [fmod_eq_emod (Int.natCast_pos.2 h), Int.natCast_mod]

theorem startRun_wexp_toNat {b : Build} (e : Engine b.width) (a n : Int) {x : Int} (hx : 0 ≤ x)
    (hxmax : x ≤ maxv b) : (e.startRun a x n).wexp.toNat = x.toNat :=
  Int.natCast_inj.1 ((pat_toNat_of_le_maxv hx hxmax).trans (Int.toNat_of_nonneg hx).symm)

/-- A start with a positive modulus and a non-negative exponent, both representable, establishes the loop invariant. -/
theorem loopInv_startRun {b : Build} (e : Engine b.width) (a : Int) {x n : Int} (hn : 0 < n)
    (hnmax : n ≤ maxv b) (hx : 0 ≤ x) (hxmax : x ≤ maxv b) : loopInv (e.startRun a x n) a x.toNat n := by
  obtain ⟨hmod, hbase, _, hacc⟩ := startRun_loads e a hn hnmax hx hxmax
  have hlt := fmod_lt hn
  refine ⟨hmod, by have := hlt 1; omega, by have := hlt a; omega, ?_⟩
  rw [hacc, hbase, startRun_wexp_toNat e a n hx hxmax, fmod_mul_pow hn, one_mul]

/-- MULSQ moves one factor of the base into the accumulator and halves the rest of the exponent. -/
theorem loopInv_mulsq {w : Nat} {e : Engine w} {a : Int} {b : Nat} {n : Int} (h : loopInv e a b n)
    (hodd : e.wexp.toNat % 2 = 1) : loopInv e.mulsq a b n := by
  obtain ⟨rfl, hacc, _, hval⟩ := h
  have hpos : 0 < e.wmod.toNat := Nat.zero_lt_of_lt hacc
  have hexp : e.wexp.toNat = 2 * (e.wexp.toNat / 2) + 1 := by omega
  simp only [loopInv, mulsq_wmod, mulsq_wacc, mulsq_wbase, mulsq_wexp, multipliedAcc_toNat hpos,
    squaredBase_toNat hpos, shifted_exponent, true_and]
  refine ⟨Nat.mod_lt _ hpos, Nat.mod_lt _ hpos, ?_⟩
  rw [← hval, ← fmod_natCast hpos, ← fmod_natCast hpos, fmod_mul_pow (Int.natCast_pos.2 hpos)]
  congr 1
  conv_rhs => rw [hexp]
  push_cast
  ring

/-- SQ halves the exponent, which is even. -/
theorem loopInv_sq {w : Nat} {e : Engine w} {a : Int} {b : Nat} {n : Int} (h : loopInv e a b n)
    (heven : e.wexp.toNat % 2 = 0) : loopInv e.sq a b n := by
  obtain ⟨rfl, hacc, _, hval⟩ := h
  have hpos : 0 < e.wmod.toNat := Nat.zero_lt_of_lt hacc
  have hexp : e.wexp.toNat = 2 * (e.wexp.toNat / 2) := by omega
  simp only [loopInv, sq_wmod, sq_wacc, sq_wbase, sq_wexp, squaredBase_toNat hpos, shifted_exponent,
    true_and]
  refine ⟨hacc, Nat.mod_lt _ hpos, ?_⟩
  rw [← hval, ← fmod_natCast hpos,
    fmod_mul_congr (Int.natCast_pos.2 hpos) rfl (fmod_pow (Int.natCast_pos.2 hpos) _ _)]
  congr 2
  conv_rhs => rw [hexp]
  push_cast
  ring

/-- Every step of a run but the last keeps the loop invariant. -/
theorem loopInv_engineTurn {w : Nat} {e : Engine w} {a : Int} {b : Nat} {n : Int} (h : loopInv e a b n)
    (hx : e.wexp.toNat ≠ 0) : loopInv (engineTurn e) a b n := by
  rcases engineTurn_cases e with ⟨_, ht⟩ | ⟨_, h0, _⟩ | ⟨_, _, hodd, ht⟩ | ⟨_, _, heven, ht⟩
  · rw [ht]; exact h
  · exact absurd h0 hx
  · rw [ht]; exact loopInv_mulsq h hodd
  · rw [ht]; exact loopInv_sq h heven

/-- The loop invariant reads the working registers only. -/
theorem loopInv_of_sameRun {w : Nat} {e f : Engine w} {a : Int} {b : Nat} {n : Int} (hf : sameRun f e)
    (h : loopInv e a b n) : loopInv f a b n := by
  obtain ⟨_, hbase, hexp, hmod, hacc⟩ := hf
  simpa only [loopInv, hbase, hexp, hmod, hacc] using h

/-- No instruction touches a run in progress. -/
theorem effect_sameRun_of_run {b : Build} (i : Instr) {e : Engine b.width} (hp : e.phase = .run) :
    sameRun (effect b i e) e := by
  rcases effect_run_cases b i e with ⟨_, hidle, _⟩ | ⟨_, hsame⟩
  · exact absurd (hidle.symm.trans hp) nofun
  · exact hsame

/-- The engine record that an accepted POWMOD with admitted operands leaves is in a run, with the loop
invariant of its operands. -/
theorem acceptPowmod_loopInv {b : Build} {e : Engine b.width} (ha : operandsAdmitted b e) :
    (acceptPowmod b e).phase = .run ∧
      loopInv (acceptPowmod b e) (val b.signed e.opa) (val b.signed e.opb).toNat (val b.signed e.opn) := by
  rw [acceptPowmod_starts ha]
  obtain ⟨_, hn, hx⟩ := ha
  exact ⟨rfl, loopInv_startRun _ _ hn (val_le_maxv b _) hx (val_le_maxv b _)⟩

theorem acceptPowmod_wexp {b : Build} {e : Engine b.width} (ha : operandsAdmitted b e) :
    (acceptPowmod b e).wexp.toNat = (val b.signed e.opb).toNat := by
  rw [acceptPowmod_starts ha]
  obtain ⟨_, _, hx⟩ := ha
  exact startRun_wexp_toNat _ _ _ hx (val_le_maxv b _)

/-- Settles O37: a start loads registers that meet the invariant, every engine step that stays in the run keeps
it, no instruction touches the run, and a reset ends it. -/
theorem loopInvariantIsKept : Obligations.LoopInvariantIsKept := by
  unfold Obligations.LoopInvariantIsKept
  refine ⟨fun s high hidle ha => ⟨_, exec_cmdPowmod_idle high hidle, acceptPowmod_loopInv ha⟩,
    fun s t a b n hrun hinv hstep ht => ?_⟩
  rcases step_kinds hstep with ⟨_, _, _, _, rfl⟩ | ⟨x, _, _, _, _, _, rfl⟩ | ⟨_, _, _, _, _, rfl⟩
  · exact loopInv_engineTurn hinv ((engineTurn_phase_run_iff _).1 ht).2
  · exact loopInv_of_sameRun (effect_sameRun_of_run (decode x) hrun) hinv
  · exact absurd ht nofun

/-! ## The length of a run (R146) -/

theorem lt_bitlen_iff (k x : Nat) : k < bitlen x ↔ 2 ^ k ≤ x := by
  unfold bitlen
  split
  · next h => simp [h]
  · next h => rw [Nat.lt_succ_iff, Nat.le_log2 h]

theorem bitlen_le_iff (k x : Nat) : bitlen x ≤ k ↔ x < 2 ^ k := by
  rw [← not_lt, lt_bitlen_iff, not_le]

theorem bitlen_mono {x y : Nat} (h : x ≤ y) : bitlen x ≤ bitlen y :=
  (bitlen_le_iff _ _).2 (lt_of_le_of_lt h (lt_two_pow_bitlen y))

theorem bitlen_two_pow_pred (k : Nat) : bitlen (2 ^ k - 1) = k := by
  induction k with
  | zero => rfl
  | succ k ih =>
    have hpos : 0 < 2 ^ k := Nat.two_pow_pos k
    have hhalf : (2 ^ (k + 1) - 1) / 2 = 2 ^ k - 1 := by omega
    rw [bitlen_pos (by omega), hhalf, ih]

/-- The longest run of a build. -/
theorem bitlen_maxv_succ (b : Build) :
    bitlen (maxv b) + 1 = if b.signed then b.width else b.width + 1 := by
  have := b.two_le_width
  unfold maxv
  cases b.signed
  · simp [bitlen_two_pow_pred]
  · simp [bitlen_two_pow_pred]; omega

/-- Every turn halves the exponent register, which is 0 once the run has ended. -/
theorem engineTurn_halves {w : Nat} {e : Engine w} (h : e.phase = .run ∨ e.wexp.toNat = 0) :
    ((engineTurn e).phase = .run ∨ (engineTurn e).wexp.toNat = 0) ∧
      (engineTurn e).wexp.toNat = e.wexp.toNat / 2 := by
  rcases engineTurn_cases e with ⟨hp, ht⟩ | ⟨hp, hx, ht⟩ | ⟨hp, _, _, ht⟩ | ⟨hp, _, _, ht⟩ <;> rw [ht]
  · have hx := h.resolve_left (phase_ne_run_iff.2 hp)
    exact ⟨.inr hx, by omega⟩
  · exact ⟨.inr hx, by rw [finish_wexp]; omega⟩
  · exact ⟨.inl hp, shifted_exponent _⟩
  · exact ⟨.inl hp, shifted_exponent _⟩

theorem engineTurn_iterate_wexp {w : Nat} {e : Engine w} (h : e.phase = .run) (k : Nat) :
    ((engineTurn^[k] e).phase = .run ∨ (engineTurn^[k] e).wexp.toNat = 0) ∧
      (engineTurn^[k] e).wexp.toNat = e.wexp.toNat / 2 ^ k := by
  induction k with
  | zero => exact ⟨.inl h, by simp⟩
  | succ k ih =>
    obtain ⟨hk, hexp⟩ := ih
    rw [Function.iterate_succ_apply']
    obtain ⟨hk', hexp'⟩ := engineTurn_halves hk
    exact ⟨hk', by rw [hexp', hexp, Nat.div_div_eq_div_mul, pow_succ]⟩

theorem engineTurn_iterate_phase_run_iff {w : Nat} {e : Engine w} (h : e.phase = .run) (k : Nat) :
    (engineTurn^[k] e).phase = .run ↔ k ≤ bitlen e.wexp.toNat := by
  induction k with
  | zero => exact iff_of_true h (Nat.zero_le _)
  | succ k ih =>
    have hbits : e.wexp.toNat / 2 ^ k ≠ 0 ↔ k < bitlen e.wexp.toNat := by
      rw [lt_bitlen_iff, Nat.div_ne_zero_iff]; simp
    rw [Function.iterate_succ_apply', engineTurn_phase_run_iff, ih, (engineTurn_iterate_wexp h k).2, hbits]
    omega

theorem engineTurn_iterate_wexp_odd_iff {w : Nat} {e : Engine w} (h : e.phase = .run) (k : Nat) :
    (engineTurn^[k] e).wexp.toNat % 2 = 1 ↔ e.wexp.getLsbD k = true := by
  rw [(engineTurn_iterate_wexp h k).2, BitVec.getLsbD, Nat.testBit_eq_decide_div_mod_eq, decide_eq_true_iff]

/-- No bit of a pattern is set from the bit length of its number on. -/
theorem countP_getLsbD_range_bitlen {w : Nat} (x : BitVec w) :
    (List.range (bitlen x.toNat)).countP x.getLsbD = (List.range w).countP x.getLsbD := by
  obtain ⟨d, hd⟩ := Nat.exists_eq_add_of_le ((bitlen_le_iff w x.toNat).2 x.isLt)
  have hclear : ((List.range d).map (bitlen x.toNat + ·)).countP x.getLsbD = 0 := by
    rw [List.countP_eq_zero]
    intro k hk
    obtain ⟨j, _, rfl⟩ := List.mem_map.1 hk
    rw [BitVec.getLsbD, Nat.testBit_lt_two_pow ((bitlen_le_iff _ _).1 (Nat.le_add_right _ j))]
    exact Bool.false_ne_true
  have hsplit : List.range w = List.range (bitlen x.toNat + d) := congrArg List.range hd
  rw [hsplit, List.range_add, List.countP_append, hclear, Nat.add_zero]

/-- Settles O38: the turns halve the exponent register until it is 0, so turn `k` sees bit `k`, and the run goes
on while a bit is left. -/
theorem runTakesBitlenPlusOneSteps : Obligations.RunTakesBitlenPlusOneSteps := by
  unfold Obligations.RunTakesBitlenPlusOneSteps
  refine fun b e h => ⟨engineTurn_iterate_phase_run_iff h, fun k _ => engineTurn_iterate_wexp_odd_iff h k, ?_,
    fun hmax => ?_, fun hmax => ?_⟩
  · rw [← countP_getLsbD_range_bitlen]
    exact List.countP_congr fun k _ => decide_eq_true_iff.trans (engineTurn_iterate_wexp_odd_iff h k)
  · rw [← bitlen_maxv_succ]
    exact Nat.succ_le_succ (bitlen_mono hmax)
  · rw [hmax, bitlen_maxv_succ]

/-! ## The value of a run (R145) -/

section PowModValue
variable {b : Build} {e : Engine b.width}

theorem powModValue_nonneg (hn : 0 < val b.signed e.opn) : 0 ≤ powModValue b e := fmod_nonneg hn _

theorem powModValue_lt (hn : 0 < val b.signed e.opn) : powModValue b e < val b.signed e.opn := fmod_lt hn _

theorem powModValue_of_modulus_one (hn : val b.signed e.opn = 1) : powModValue b e = 0 := by
  have h0 := powModValue_nonneg (e := e) (by omega)
  have h1 := powModValue_lt (e := e) (by omega)
  omega

theorem powModValue_of_exponent_zero (hx : val b.signed e.opb = 0) :
    powModValue b e = fmod 1 (val b.signed e.opn) := by
  unfold powModValue; rw [hx, Int.toNat_zero, pow_zero]

theorem powModValue_of_base_zero (ha : val b.signed e.opa = 0) (hx : 0 < val b.signed e.opb) :
    powModValue b e = 0 := by
  unfold powModValue; rw [ha, zero_pow (by omega)]; exact Int.zero_fmod _

end PowModValue

/-- With no exponent bit left, the accumulator holds the value of the run. -/
theorem wacc_of_loopInv_of_wexp_zero {w : Nat} {e : Engine w} {a : Int} {b : Nat} {n : Int}
    (h : loopInv e a b n) (hx : e.wexp.toNat = 0) : (e.wacc.toNat : Int) = fmod (a ^ b) n := by
  obtain ⟨rfl, hacc, _, hval⟩ := h
  rw [← hval, hx, pow_zero, mul_one, fmod_natCast (Nat.zero_lt_of_lt hacc), Nat.mod_eq_of_lt hacc]

/-! ## Schedules of transactions and engine turns (20_memory.md R58) -/

/-- The engine record after an ordinary event. The other events have no part in a schedule of ordinary ones. -/
def afterOrdinary (b : Build) (e : Engine b.width) : Event b.bw → Engine b.width
  | .host x => effect b (decode x) e
  | .engine => engineTurn e
  | .reset _ => e
  | .splitAccess => e
  | .powerRemoved => e

/-- An ordinary event answers a next state, and touches the engine record and the responses only. -/
theorem step_ordinary {s : State} {ev : Event s.build.bw} {rest : List (Event s.build.bw)}
    (he : s.events = ev :: rest) (ho : ordinary ev = true) :
    ∃ rs, step s = .next { s with engine := afterOrdinary s.build s.engine ev, events := rest, responses := rs } := by
  cases ev with
  | host x => exact ⟨_, (step_host he).trans (exec_eq _ _)⟩
  | engine => exact ⟨_, step_engine he⟩
  | _ => exact absurd ho nofun

/-- A run over a schedule of ordinary events applies them to the engine record in order. -/
theorem run_ordinary {s : State} {sched rest : List (Event s.build.bw)} (he : s.events = sched ++ rest)
    (ho : ∀ ev ∈ sched, ordinary ev = true) :
    ∃ rs, Sys2Proof.core.run sched.length s =
      .next { s with engine := sched.foldl (afterOrdinary s.build) s.engine, events := rest, responses := rs } := by
  obtain ⟨b, e, evs, rs, fr⟩ := s
  change List (Event b.bw) at sched rest
  induction sched generalizing e evs rs with
  | nil => subst he; exact ⟨rs, rfl⟩
  | cons ev sched ih =>
    obtain ⟨rs', hstep⟩ := step_ordinary he (ho ev List.mem_cons_self)
    have ho' : ∀ ev' ∈ sched, ordinary ev' = true := fun ev' h => ho ev' (List.mem_cons_of_mem ev h)
    obtain ⟨rs'', hrun⟩ := ih (afterOrdinary b e ev) (sched ++ rest) rs' ho' rfl
    exact ⟨rs'', (run_succ hstep _).trans hrun⟩

/-- A schedule that still has an engine turn after its first event ends as the rest of it does. -/
theorem getLast?_eq_engine_of_cons {bw k : Nat} {ev : Event bw} {sched : List (Event bw)}
    (hlast : (ev :: sched).getLast? = some .engine) (hcount : sched.count .engine = k + 1) :
    sched.getLast? = some .engine := by
  have hmem : .engine ∈ sched := List.count_pos_iff.1 (hcount ▸ k.succ_pos)
  rwa [List.getLast?_cons_of_ne_nil (List.ne_nil_of_mem hmem)] at hlast

/-- A schedule that ends with its first engine turn has no event after it. -/
theorem eq_nil_of_getLast?_eq_engine {bw : Nat} {ev : Event bw} {sched : List (Event bw)}
    (hlast : (ev :: sched).getLast? = some .engine) (hcount : sched.count .engine = 0) : sched = [] := by
  by_contra hne
  rw [List.getLast?_cons_of_ne_nil hne] at hlast
  exact List.count_eq_zero.1 hcount (List.mem_of_getLast? hlast)

/-- However transactions come between its turns, a run that meets the loop invariant ends at turn
`bitlen(w.exp) + 1`, with its value in RESULT. -/
theorem foldl_afterOrdinary_ends_run {b : Build} {a : Int} {x : Nat} {n : Int} (sched : List (Event b.bw))
    (e : Engine b.width) (hrun : e.phase = .run) (hinv : loopInv e a x n)
    (ho : ∀ ev ∈ sched, ordinary ev = true) (hlast : sched.getLast? = some .engine)
    (hcount : sched.count .engine = bitlen e.wexp.toNat + 1) :
    ∃ f : Engine b.width, sched.foldl (afterOrdinary b) e = f.finish ∧ (f.wacc.toNat : Int) = fmod (a ^ x) n := by
  induction sched generalizing e with
  | nil => exact absurd hlast nofun
  | cons ev sched ih =>
    have ho' : ∀ ev' ∈ sched, ordinary ev' = true := fun ev' h => ho ev' (List.mem_cons_of_mem ev h)
    cases ev with
    | host y =>
      have hsame := effect_sameRun_of_run (decode y) hrun
      have ⟨hp, _, hexp, _⟩ := hsame
      rw [List.count_cons_of_ne (show Event.host y ≠ .engine from nofun), ← hexp] at hcount
      exact ih _ (hp.trans hrun) (loopInv_of_sameRun hsame hinv) ho' (getLast?_eq_engine_of_cons hlast hcount) hcount
    | engine =>
      rw [List.count_cons_self, Nat.add_right_cancel_iff] at hcount
      by_cases hx : e.wexp.toNat = 0
      · have hnil := eq_nil_of_getLast?_eq_engine hlast (by rw [hcount, hx, bitlen_zero])
        subst hnil
        exact ⟨e, engineTurn_last hrun hx, wacc_of_loopInv_of_wexp_zero hinv hx⟩
      · obtain ⟨hp, hexp, _⟩ := engineTurn_inner hrun hx
        rw [bitlen_shifted hx, ← hexp] at hcount
        exact ih _ hp (loopInv_engineTurn hinv hx) ho' (getLast?_eq_engine_of_cons hlast hcount) hcount
    | _ => exact absurd (ho _ List.mem_cons_self) nofun

/-- Settles O41: the start establishes the loop invariant, and under every schedule the run ends at its last
turn with the accumulator in RESULT. -/
theorem runResultUnderEveryInterleaving : Obligations.RunResultUnderEveryInterleaving := by
  unfold Obligations.RunResultUnderEveryInterleaving
  intro s high sched rest hidle ha he ho hlast hcount
  obtain ⟨hrun, hinv⟩ := acceptPowmod_loopInv ha
  have ⟨_, hn, _⟩ := ha
  obtain ⟨f, hfold, hvalue⟩ := foldl_afterOrdinary_ends_run sched _ hrun hinv ho hlast
    (by rw [hcount, acceptPowmod_wexp ha])
  obtain ⟨rs, hend⟩ : ∃ rs, Sys2Proof.core.run sched.length (s.withEngine (acceptPowmod s.build s.engine)) =
      .next { s with engine := f.finish, events := rest, responses := rs } := by
    rw [← hfold]
    exact run_ordinary (s := s.withEngine (acceptPowmod s.build s.engine)) he ho
  have hresult : (f.finish.result.toNat : Int) = powModValue s.build s.engine := hvalue
  exact ⟨_, _, exec_cmdPowmod_idle high hidle, hend, hresult, rfl, rfl, rfl, hresult.trans_lt (powModValue_lt hn),
    fun h1 => Int.natCast_eq_zero.1 (hresult.trans (powModValue_of_modulus_one h1)),
    fun h0 => hresult.trans (powModValue_of_exponent_zero h0),
    fun hbase hpos => Int.natCast_eq_zero.1 (hresult.trans (powModValue_of_base_zero hbase hpos))⟩

end Sys2Proof.Machine
end

section
/-! The error record: the codes, the refusals of a POWMOD, and the priority of the errors of one command
(60_exceptions.md R160 to R167). -/

namespace Sys2Proof.Machine

/-! ## Raising an error (R161, R166) -/

/-- Settles O18: `raise` writes ERR and ERRCODE, and its frame is the rest. -/
theorem raiseSetsOnlyTheErrorRecord : Obligations.RaiseSetsOnlyTheErrorRecord := by
  unfold Obligations.RaiseSetsOnlyTheErrorRecord
  exact ⟨fun _ e k => ⟨raise_err e k, raise_errcode e k, raise_done e k, raise_result e k,
    raise_sameOperands e k, raise_sameRun e k⟩, rfl, rfl, rfl, rfl, rfl⟩

/-- Settles O20: during a run both commands mean `raise .busy`. -/
theorem busyRejection : Obligations.BusyRejection := by
  unfold Obligations.BusyRejection
  intro s i high hi hrun
  have hexec : exec i s = .next (s.withEngine (s.engine.raise .busy)) := by
    rcases hi with rfl | rfl
    · exact exec_cmdPowmod_run high hrun
    · exact exec_cmdClear_run high hrun
  exact ⟨_, hexec, rfl, rfl, rfl, rfl, raise_sameOperands _ _, raise_sameRun _ _⟩

/-! ## The refusal of a modulus (R163) -/

/-- DOMAIN_MODULUS is the outcome of an accepted POWMOD exactly when the modulus is not positive: the guard
never refuses such a modulus first. -/
theorem acceptPowmod_errcode_modulus_iff (b : Build) (e : Engine b.width) :
    (acceptPowmod b e).errcode = 2 ↔ val b.signed e.opn ≤ 0 := by
  rcases acceptPowmod_cases b e with ⟨hguard, h⟩ | ⟨hn, h⟩ | ⟨_, hn, _, h⟩ | ⟨⟨_, hn, _⟩, h⟩ <;> rw [h]
  · exact iff_of_false nofun (by omega)
  · exact iff_of_true rfl hn
  · exact iff_of_false nofun (not_le_of_gt hn)
  · exact iff_of_false nofun (not_le_of_gt hn)

/-- A pattern without the sign bit, or read as unsigned, denotes 0 or less only when it is 0. -/
theorem val_nonpos_iff_of_no_sign_bit {b : Build} {r : BitVec b.width}
    (h : ¬ (b.signed = true ∧ r.getLsbD (b.width - 1) = true)) : val b.signed r ≤ 0 ↔ r = 0 := by
  rw [val_of_no_sign_bit h, ← BitVec.toNat_inj, BitVec.ofNat_eq_ofNat, BitVec.toNat_zero]
  omega

theorem val_neg_of_sign_bit {b : Build} {r : BitVec b.width}
    (h : b.signed = true ∧ r.getLsbD (b.width - 1) = true) : val b.signed r < 0 := by
  have hlt : (r.toNat : Int) < 2 ^ b.width := by exact_mod_cast r.isLt
  rw [val_of_sign_bit h]
  omega

/-- When SIGNED, the patterns that denote 0 or less are 0 and those with the sign bit. -/
theorem val_nonpos_iff_of_signed {b : Build} (hs : b.signed = true) (r : BitVec b.width) :
    val b.signed r ≤ 0 ↔ r = 0 ∨ r.getLsbD (b.width - 1) = true := by
  by_cases hbit : r.getLsbD (b.width - 1) = true
  · exact iff_of_true (val_neg_of_sign_bit ⟨hs, hbit⟩).le (.inr hbit)
  · rw [val_nonpos_iff_of_no_sign_bit fun h => hbit h.2, or_iff_left hbit]

/-- Settles O25: the code is 2 exactly when `n <= 0`, and the sign bit tells which patterns these are. -/
theorem nonPositiveModulusRefused : Obligations.NonPositiveModulusRefused := by
  unfold Obligations.NonPositiveModulusRefused
  intro s high hidle
  have hcode := acceptPowmod_errcode_modulus_iff s.build s.engine
  obtain ⟨hresult, hoperands⟩ := acceptPowmod_keeps s.build s.engine
  refine ⟨_, exec_cmdPowmod_idle high hidle, hcode, fun hn => ⟨by omega, ?_, acceptPowmod_done _ _, hresult,
    hoperands, ?_⟩, fun hs => ?_, fun hs => hcode.trans (val_nonpos_iff_of_signed hs _)⟩
  · rw [acceptPowmod_modulus hn]; rfl
  · rw [acceptPowmod_modulus hn]; exact refusal_sameRun _ _
  · exact hcode.trans (val_nonpos_iff_of_no_sign_bit fun h => absurd (hs.symm.trans h.1) nofun)

/-! ## The refusal of an exponent (R164) -/

/-- DOMAIN_EXPONENT is the outcome of an accepted POWMOD exactly when the guard and the modulus check pass
and the exponent is negative. -/
theorem acceptPowmod_errcode_exponent_iff (b : Build) (e : Engine b.width) :
    (acceptPowmod b e).errcode = 3 ↔ val b.signed e.opn - 1 ≤ guardLimit b ∧ 0 < val b.signed e.opn ∧
      val b.signed e.opb < 0 := by
  rcases acceptPowmod_cases b e with ⟨hguard, h⟩ | ⟨hn, h⟩ | ⟨hguard, hn, hx, h⟩ | ⟨⟨_, _, hx⟩, h⟩ <;> rw [h]
  · exact iff_of_false nofun fun ⟨hpass, _, _⟩ => not_lt_of_ge hpass hguard
  · exact iff_of_false nofun fun ⟨_, hpass, _⟩ => not_le_of_gt hpass hn
  · exact iff_of_true rfl ⟨hguard, hn, hx⟩
  · exact iff_of_false nofun fun ⟨_, _, hneg⟩ => not_le_of_gt hneg hx

/-- Settles O26: the code is 3 exactly when the exponent check is the first to fail, and only a SIGNED
exponent is negative. -/
theorem negativeExponentRefused : Obligations.NegativeExponentRefused := by
  unfold Obligations.NegativeExponentRefused
  intro s high hidle
  have hcode := acceptPowmod_errcode_exponent_iff s.build s.engine
  obtain ⟨hresult, hoperands⟩ := acceptPowmod_keeps s.build s.engine
  refine ⟨_, exec_cmdPowmod_idle high hidle, hcode, fun h3 => ?_⟩
  obtain ⟨hguard, hn, hx⟩ := hcode.1 h3
  refine ⟨signed_of_val_neg hx, ?_, acceptPowmod_done _ _, hresult, hoperands, ?_⟩ <;>
    rw [acceptPowmod_exponent hguard hn hx]
  · rfl
  · exact refusal_sameRun _ _

/-! ## The priority of the errors (R167) -/

/-- A write to CMD touches the engine record only. -/
theorem exec_command (s : State) (d : BitVec s.build.bw) :
    exec (decode (.write 0x1 d)) s =
      .next (s.withEngine (effect s.build (decode (.write 0x1 d)) s.engine)) := by
  rw [decode_command]
  rcases decodeCommand_cases d.toNat with ⟨_, h⟩ | ⟨_, h⟩ | ⟨_, h⟩ | ⟨_, h⟩ <;> rw [h] <;> rfl

theorem effect_cmdPowmod_idle {b : Build} {e : Engine b.width} (high : Nat) (h : e.phase = .idle) :
    effect b (.cmdPowmod high) e = acceptPowmod b e := whenIdle_idle h

theorem effect_cmdPowmod_run {b : Build} {e : Engine b.width} (high : Nat) (h : e.phase = .run) :
    effect b (.cmdPowmod high) e = e.raise .busy := whenIdle_run h

theorem effect_cmdClear_idle {b : Build} {e : Engine b.width} (high : Nat) (h : e.phase = .idle) :
    effect b (.cmdClear high) e = e.clearStatus := whenIdle_idle h

theorem effect_cmdClear_run {b : Build} {e : Engine b.width} (high : Nat) (h : e.phase = .run) :
    effect b (.cmdClear high) e = e.raise .busy := whenIdle_run h

/-- Settles O27: the opcode is decided first, then the phase, then the checks of `acceptPowmod` in order. -/
theorem oneErrorByPriority : Obligations.OneErrorByPriority := by
  unfold Obligations.OneErrorByPriority
  refine fun s d => ⟨_, exec_command s d, fun h => ?_, fun h hrun => ?_, fun h hidle => ?_, fun h hidle => ?_,
    fun h => ?_⟩
  · rw [decode_command_reserved h]; exact ⟨rfl, rfl⟩
  · rcases h with h | h
    · rw [decode_command_powmod h, effect_cmdPowmod_run _ hrun]; exact ⟨rfl, rfl⟩
    · rw [decode_command_clear h, effect_cmdClear_run _ hrun]; exact ⟨rfl, rfl⟩
  · rw [decode_command_powmod h, effect_cmdPowmod_idle _ hidle]
    refine ⟨fun hguard => ?_, fun hn => ?_, fun hguard hn hx => ?_, fun hadmitted => ?_⟩
    · rw [acceptPowmod_overflow hguard]; exact ⟨rfl, rfl⟩
    · rw [acceptPowmod_modulus hn]; exact ⟨rfl, rfl⟩
    · rw [acceptPowmod_exponent hguard hn hx]; exact ⟨rfl, rfl⟩
    · rw [acceptPowmod_starts hadmitted]; exact ⟨rfl, rfl⟩
  · rw [decode_command_clear h, effect_cmdClear_idle _ hidle]; exact ⟨rfl, rfl⟩
  · rw [decode_command_nop h]; exact ⟨rfl, rfl⟩

end Sys2Proof.Machine
end

section
/-! What changes the error record and the interrupt level (60_exceptions.md R169, R171). -/

namespace Sys2Proof.Machine

section StepOf
variable {s t : State}

/-- The step that presents an instruction is its effect. -/
theorem step_of_nextInstr {i : Instr} (h : step s = .next t) (hi : nextInstr s i) :
    ∃ rest, t = { s with engine := effect s.build i s.engine, events := rest,
                         responses := answered s.build i s.engine s.responses } := by
  obtain ⟨x, rest, he, rfl⟩ := hi
  rw [step_host he] at h
  exact ⟨rest, step_host_eq h⟩

/-- An accepted POWMOD that is refused clears the previous outcome and raises an error. -/
theorem step_of_refusesPowmod (h : step s = .next t) (hr : refusesPowmod s) :
    ∃ k rest, t = { s with engine := s.engine.clearStatus.raise k, events := rest } := by
  obtain ⟨⟨⟨high, hi⟩, hidle⟩, hn⟩ := hr
  obtain ⟨rest, rfl⟩ := step_of_nextInstr h hi
  obtain ⟨k, hk⟩ := acceptPowmod_refuses hn
  exact ⟨k, rest, by rw [effect_cmdPowmod_idle high hidle, hk]; rfl⟩

/-- An accepted POWMOD that starts a run clears the previous outcome. -/
theorem step_of_startsRun (h : step s = .next t) (hs : startsRun s) :
    ∃ a x n rest, t = { s with engine := s.engine.clearStatus.startRun a x n, events := rest } := by
  obtain ⟨⟨⟨high, hi⟩, hidle⟩, ha⟩ := hs
  obtain ⟨rest, rfl⟩ := step_of_nextInstr h hi
  exact ⟨_, _, _, rest, by rw [effect_cmdPowmod_idle high hidle, acceptPowmod_starts ha]; rfl⟩

theorem step_of_acceptsClear (h : step s = .next t) (hc : acceptsClear s) :
    ∃ rest, t = { s with engine := s.engine.clearStatus, events := rest } := by
  obtain ⟨⟨high, hi⟩, hidle⟩ := hc
  obtain ⟨rest, rfl⟩ := step_of_nextInstr h hi
  exact ⟨rest, by rw [effect_cmdClear_idle high hidle]; rfl⟩

theorem step_of_nextIsReset (h : step s = .next t) (hr : nextIsReset s) :
    ∃ p rest, t = resetState s p rest := by
  obtain ⟨p, rest, he⟩ := hr
  rw [step_reset he] at h
  injection h with h
  exact ⟨p, rest, h.symm⟩

end StepOf

/-! ## The changes of the status -/

/-- What the next step of `s` can make of the engine record, as far as IE, DONE, ERR and ERRCODE go: the error
record and the terms of the interrupt level. -/
inductive StatusChange (s : State) : Engine s.build.width → Prop where
  | finish (h : finishes s) : StatusChange s s.engine.finish
  | reject (h : rejectsCommand s) (k : ErrorKind) : StatusChange s (s.engine.raise k)
  | refuse (h : refusesPowmod s) (k : ErrorKind) : StatusChange s (s.engine.clearStatus.raise k)
  | start (h : startsRun s) (a x n : Int) : StatusChange s (s.engine.clearStatus.startRun a x n)
  | clear (h : acceptsClear s) : StatusChange s s.engine.clearStatus
  | reset (h : nextIsReset s) : StatusChange s (freshlyReset s.build.width s.fresh)
  | writeIe (d : Nat) (h : nextInstr s (.wrIe d)) : StatusChange s (s.engine.setIe (keepIe d))
  | keep {e : Engine s.build.width} (hstatus : sameStatus e s.engine) (hie : e.ie = s.engine.ie) :
      StatusChange s e

theorem statusChange_engineTurn {s : State} (heng : nextIsEngine s) : StatusChange s (engineTurn s.engine) := by
  rcases engineTurn_cases s.engine with ⟨_, ht⟩ | ⟨hp, hx, ht⟩ | ⟨_, _, _, ht⟩ | ⟨_, _, _, ht⟩ <;> rw [ht]
  · exact .keep ⟨rfl, rfl, rfl⟩ rfl
  · exact .finish ⟨heng, hp, hx⟩
  · exact .keep ⟨rfl, rfl, rfl⟩ rfl
  · exact .keep ⟨rfl, rfl, rfl⟩ rfl

theorem statusChange_effect {s : State} {i : Instr} (hi : nextInstr s i) :
    StatusChange s (effect s.build i s.engine) := by
  rcases effect_cases s.build i s.engine with ⟨⟨high, rfl⟩, hp, ha, h⟩ | ⟨⟨high, rfl⟩, hp, hn, k, h⟩ |
    ⟨⟨high, hb⟩, hp, h⟩ | ⟨⟨high, rfl⟩, hp, h⟩ | ⟨⟨opcode, high, rfl⟩, h⟩ | ⟨d, rfl, h⟩ | ⟨_, _, h⟩ | ⟨_, _, h⟩ |
    ⟨_, _, h⟩ | ⟨_, _, _, h⟩ <;> rw [h]
  · exact .start ⟨⟨⟨high, hi⟩, hp⟩, ha⟩ _ _ _
  · exact .refuse ⟨⟨⟨high, hi⟩, hp⟩, hn⟩ k
  · exact .reject (.inr ⟨⟨high, hb.imp (· ▸ hi) (· ▸ hi)⟩, hp⟩) .busy
  · exact .clear ⟨⟨high, hi⟩, hp⟩
  · exact .reject (.inl ⟨opcode, high, hi⟩) .illegalCmd
  · exact .writeIe d hi
  all_goals exact .keep ⟨rfl, rfl, rfl⟩ rfl

/-- Every step makes one of the changes. -/
theorem step_statusChange {s t : State} (h : step s = .next t) :
    ∃ e evs rs fr, t = { build := s.build, engine := e, events := evs, responses := rs, fresh := fr } ∧
      StatusChange s e := by
  rcases step_kinds h with ⟨_, heng, _, _, rfl⟩ | ⟨_, _, _, _, _, hi, rfl⟩ | ⟨_, _, hr, _, _, rfl⟩
  · exact ⟨_, _, _, _, rfl, statusChange_engineTurn heng⟩
  · exact ⟨_, _, _, _, rfl, statusChange_effect ((hi _).2 rfl)⟩
  · exact ⟨_, _, _, _, rfl, .reset hr⟩

/-! ## The error record (R169) -/

theorem engineTurn_error {w : Nat} (e : Engine w) :
    (engineTurn e).err = e.err ∧ (engineTurn e).errcode = e.errcode := by
  rcases engineTurn_cases e with ⟨_, ht⟩ | ⟨_, _, ht⟩ | ⟨_, _, _, ht⟩ | ⟨_, _, _, ht⟩ <;> rw [ht] <;>
    exact ⟨rfl, rfl⟩

/-- ERR and ERRCODE are kept by every step but a rejected command, an accepted POWMOD, an accepted CLEAR and
a reset. -/
theorem step_error_kept {s t : State} (h : step s = .next t)
    (hkept : ¬ (rejectsCommand s ∨ acceptsPowmod s ∨ acceptsClear s ∨ nextIsReset s)) :
    t.engine.err = s.engine.err ∧ t.engine.errcode = s.engine.errcode := by
  obtain ⟨e, _, _, _, rfl, hchange⟩ := step_statusChange h
  cases hchange with
  | finish _ => exact ⟨rfl, rfl⟩
  | reject hrej _ => exact absurd (.inl hrej) hkept
  | refuse href _ => exact absurd (.inr (.inl href.1)) hkept
  | start hstart _ _ _ => exact absurd (.inr (.inl hstart.1)) hkept
  | clear hclear => exact absurd (.inr (.inr (.inl hclear))) hkept
  | reset hreset => exact absurd (.inr (.inr (.inr hreset))) hkept
  | writeIe _ _ => exact ⟨rfl, rfl⟩
  | keep hstatus _ => exact hstatus.2

/-- A rejected command and a refused POWMOD end in `raise`, whose code is no 0. -/
theorem step_error_raised {s t : State} (h : step s = .next t) (hraise : rejectsCommand s ∨ refusesPowmod s) :
    t.engine.err = true ∧ t.engine.errcode ≠ 0 := by
  rcases hraise with hrej | href
  · obtain ⟨k, _, rfl⟩ := step_of_rejectsCommand h hrej
    exact ⟨rfl, errorCode_ne_zero k⟩
  · obtain ⟨k, _, rfl⟩ := step_of_refusesPowmod h href
    exact ⟨rfl, errorCode_ne_zero k⟩

theorem step_error_cleared {s t : State} (h : step s = .next t)
    (hclear : startsRun s ∨ acceptsClear s ∨ nextIsReset s) : t.engine.err = false ∧ t.engine.errcode = 0 := by
  rcases hclear with hstart | hclear | hreset
  · obtain ⟨_, _, _, _, rfl⟩ := step_of_startsRun h hstart
    exact ⟨rfl, rfl⟩
  · obtain ⟨_, rfl⟩ := step_of_acceptsClear h hclear
    exact ⟨rfl, rfl⟩
  · obtain ⟨_, _, rfl⟩ := step_of_nextIsReset h hreset
    exact ⟨rfl, rfl⟩

/-- Settles O52: the error record is kept, raised or cleared by the events that the three lemmas name, and the
engine's turn keeps it. -/
theorem errorsComeOnlyFromCommands : Obligations.ErrorsComeOnlyFromCommands := by
  unfold Obligations.ErrorsComeOnlyFromCommands
  refine fun s t h => ⟨fun hchanged => ?_, fun heng => ?_, step_error_raised h, step_error_cleared h⟩
  · by_contra hkept
    obtain ⟨herr, hcode⟩ := step_error_kept h hkept
    exact hchanged.elim (· herr) (· hcode)
  · rcases step_kinds h with ⟨_, _, _, _, rfl⟩ | ⟨_, _, _, hn, _⟩ | ⟨_, _, _, hn, _⟩
    · exact engineTurn_error s.engine
    · exact absurd heng hn
    · exact absurd heng hn

/-! ## The interrupt level (R171) -/

section Irq
variable {w : Nat} (e : Engine w)

theorem irq_eq_true_iff : irq e = true ↔ e.ie = true ∧ (e.done = true ∨ e.err = true) := by simp [irq]

/-- After an error the interrupt level is the enable bit, because ERR is set. -/
theorem irq_raise (k : ErrorKind) : irq (e.raise k) = e.ie := by simp [irq]

theorem irq_startRun (a x n : Int) : irq (e.startRun a x n) = irq e := rfl

theorem irq_eq_of_sameStatus {e f : Engine w} (hstatus : sameStatus e f) (hie : e.ie = f.ie) : irq e = irq f := by
  obtain ⟨hdone, herr, _⟩ := hstatus
  rw [irq, irq, hie, hdone, herr]

end Irq

/-- The interrupt level rises only at a FINISH, at an error, or at an enabling write of IE. -/
theorem step_irq_rises {s t : State} (h : step s = .next t) (hs : irq s.engine = false)
    (ht : irq t.engine = true) : finishes s ∨ rejectsCommand s ∨ refusesPowmod s ∨
      ∃ d, nextInstr s (.wrIe d) ∧ d % 2 = 1 ∧ (s.engine.done = true ∨ s.engine.err = true) := by
  obtain ⟨e, _, _, _, rfl, hchange⟩ := step_statusChange h
  cases hchange with
  | finish hf => exact .inl hf
  | reject hrej _ => exact .inr (.inl hrej)
  | refuse href _ => exact .inr (.inr (.inl href))
  | start _ _ _ _ => exact absurd ht (Bool.eq_false_iff.1 (irq_clearStatus s.engine))
  | clear _ => exact absurd ht (Bool.eq_false_iff.1 (irq_clearStatus s.engine))
  | reset _ => exact absurd ht nofun
  | writeIe d hd =>
    obtain ⟨hbit, hstatus⟩ := (irq_setIe_iff s.engine _).1 ht
    exact .inr (.inr (.inr ⟨d, hd, (keepIe_eq_true_iff d).1 hbit, hstatus⟩))
  | keep hstatus hie =>
    exact absurd ((irq_eq_of_sameStatus hstatus hie).symm.trans ht) (Bool.eq_false_iff.1 hs)

/-- The interrupt level falls only at CLEAR, at a POWMOD that starts a run, at a disabling write of IE, or at
reset: an error and a FINISH leave it at IE, which is 1 while the level is. -/
theorem step_irq_falls {s t : State} (h : step s = .next t) (hs : irq s.engine = true)
    (ht : irq t.engine = false) :
    acceptsClear s ∨ startsRun s ∨ (∃ d, nextInstr s (.wrIe d) ∧ d % 2 = 0) ∨ nextIsReset s := by
  obtain ⟨hie, hstatus⟩ := (irq_eq_true_iff s.engine).1 hs
  have hlow := Bool.eq_false_iff.1 ht
  obtain ⟨e, _, _, _, rfl, hchange⟩ := step_statusChange h
  cases hchange with
  | finish _ => exact absurd ((irq_finish s.engine).trans hie) hlow
  | reject _ k => exact absurd ((irq_raise s.engine k).trans hie) hlow
  | refuse _ k => exact absurd ((irq_raise s.engine.clearStatus k).trans hie) hlow
  | start hstart _ _ _ => exact .inr (.inl hstart)
  | clear hclear => exact .inl hclear
  | reset hreset => exact .inr (.inr (.inr hreset))
  | writeIe d hd =>
    refine .inr (.inr (.inl ⟨d, hd, Nat.mod_two_ne_one.1 fun hodd => ?_⟩))
    exact hlow ((irq_setIe_iff s.engine _).2 ⟨(keepIe_eq_true_iff d).2 hodd, hstatus⟩)
  | keep hsame hkept => exact absurd ((irq_eq_of_sameStatus hsame hkept).trans hs) hlow

/-- After an accepted POWMOD the interrupt level is 1 only when the command was refused, and IE is 1. -/
theorem step_irq_of_acceptsPowmod {s t : State} (h : step s = .next t) (hacc : acceptsPowmod s) :
    irq t.engine = true ↔ s.engine.ie = true ∧ refusesPowmod s := by
  by_cases ha : operandsAdmitted s.build s.engine
  · obtain ⟨_, _, _, _, rfl⟩ := step_of_startsRun h ⟨hacc, ha⟩
    exact iff_of_false (by simp [irq_startRun, irq_clearStatus]) fun ⟨_, _, hn⟩ => hn ha
  · obtain ⟨k, _, rfl⟩ := step_of_refusesPowmod h ⟨hacc, ha⟩
    rw [irq_raise]
    exact (and_iff_left ⟨hacc, ha⟩).symm

/-- Settles O55: the level is a formula of IE, DONE and ERR, it rises and falls with the changes of the
status that a step can make, and a read makes none. -/
theorem irqRisesAndFallsOnlyAsSpecified : Obligations.IrqRisesAndFallsOnlyAsSpecified := by
  unfold Obligations.IrqRisesAndFallsOnlyAsSpecified
  refine fun s t h => ⟨irq_eq_true_iff _, step_irq_rises h, step_irq_falls h, step_irq_of_acceptsPowmod h, ?_⟩
  rintro ⟨_, hrd⟩
  obtain ⟨_, rfl⟩ := step_of_nextInstr h hrd
  rfl

end Sys2Proof.Machine
end

section
/-! A cycle with reset (70_reset_and_hazards.md R190 to R192). -/

namespace Sys2Proof.Machine

/-- A cycle with reset is one event: neither the transaction nor the engine step is an event of its own. -/
theorem cycleEvents_reset {bw : Nat} (p : Option (Txn bw)) (stepEnds : Bool) :
    cycleEvents true p stepEnds = [.reset p] := rfl

theorem step_of_resetCycle {s : State} {p : Option (Txn s.build.bw)} {stepEnds : Bool}
    {rest : List (Event s.build.bw)} (h : s.events = cycleEvents true p stepEnds ++ rest) :
    step s = .next (resetState s p rest) :=
  step_reset (by rw [h, cycleEvents_reset, List.singleton_append])

/-! ## The engine after a reset event -/

section FreshlyReset
variable (w fresh : Nat)

theorem freshlyReset_operands : (freshlyReset w fresh).opa.toNat = 0 ∧ (freshlyReset w fresh).opb.toNat = 0 ∧
    (freshlyReset w fresh).opn.toNat = 0 := ⟨BitVec.toNat_zero, BitVec.toNat_zero, BitVec.toNat_zero⟩

theorem freshlyReset_result : (freshlyReset w fresh).result.toNat = 0 := BitVec.toNat_zero

theorem freshlyReset_status : (freshlyReset w fresh).done = false ∧ (freshlyReset w fresh).err = false ∧
    (freshlyReset w fresh).errcode = 0 := ⟨rfl, rfl, rfl⟩

theorem freshlyReset_ie : (freshlyReset w fresh).ie = false := rfl

theorem freshlyReset_phase : (freshlyReset w fresh).phase = .idle := rfl

theorem irq_freshlyReset : irq (freshlyReset w fresh) = false := by
  rw [irq, freshlyReset_ie, Bool.false_and]

theorem statusWord_freshlyReset : (statusWord (freshlyReset w fresh)).toNat = 0 := by
  obtain ⟨hdone, herr, hcode⟩ := freshlyReset_status w fresh
  simp [statusWord_toNat, busy_toNat, freshlyReset_phase, irq_freshlyReset, hdone, herr, hcode]

end FreshlyReset

/-- A read presented in the cycle of a reset is answered. -/
theorem resetResponses_head_of_read {bw : Nat} (fresh : Nat) (responses : List (BitVec bw)) (a : Index) :
    ∃ v, (resetResponses fresh responses (some (.read a))).head? = some v := ⟨_, rfl⟩

/-- Settles O60: the cycle is one reset event, after which the engine is `freshlyReset`: its registers are 0,
and it is IDLE, so it has no turn to take. -/
theorem resetOverridesItsCycle : Obligations.ResetOverridesItsCycle := by
  unfold Obligations.ResetOverridesItsCycle
  intro s p stepEnds rest h
  obtain ⟨hopa, hopb, hopn⟩ := freshlyReset_operands s.build.width s.fresh
  obtain ⟨hdone, herr, hcode⟩ := freshlyReset_status s.build.width s.fresh
  refine ⟨resetState s p rest, step_of_resetCycle h, freshlyReset_ie _ _, hopa, hopb, hopn,
    freshlyReset_result _ _, hdone, herr, hcode, freshlyReset_phase _ _, irq_freshlyReset _ _,
    statusWord_freshlyReset _ _, rfl, engineTurn_idle (freshlyReset_phase _ _), ?_⟩
  rintro a rfl
  exact resetResponses_head_of_read _ _ a

end Sys2Proof.Machine
end

section
/-! Encoding: the decoder and the encoder undo each other, and the opcode map names each transaction once
(30_encoding.md R70 to R77). -/

namespace Sys2Proof.Machine

/-! ## Decoding what was encoded -/

section DecodeOfEncode
variable {bw : Nat}

/-- A write whose data fits the bus is decoded from that data. -/
theorem decode_write_ofNat (a : Index) {data : Nat} (h : fitsBus bw data = true) :
    decode (.write a (BitVec.ofNat bw data)) = decodeWrite a data := by
  rw [decode_write, toNat_ofNat_of_fits h]

/-- The data of an encoded command holds the opcode in its low nibble, and the ignored part above it. -/
theorem command_data_parts {opcode high : Nat} (hbw : 4 ≤ bw) (ho : opcode < 16)
    (hh : fitsHigh bw high = true) :
    (BitVec.ofNat bw (16 * high + opcode)).toNat % 16 = opcode ∧
      (BitVec.ofNat bw (16 * high + opcode)).toNat / 16 = high := by
  rw [BitVec.toNat_ofNat, Nat.mod_eq_of_lt (command_fits hbw ho hh)]
  exact decodeCommand_assembled opcode high ho

/-- An encoded reserved command carries an opcode from 3 on, and is decoded to it. -/
theorem decode_encode_cmdRsvd {opcode : BitVec 4} {high : Nat} (hbw : 4 ≤ bw)
    (ho : reservedOpcode opcode = true) (hh : fitsHigh bw high = true) :
    decode (encode bw (.cmdRsvd opcode high)) = .cmdRsvd opcode high := by
  obtain ⟨hlow, hhigh⟩ := command_data_parts hbw opcode.isLt hh
  have hres : 3 ≤ opcode.toNat := of_decide_eq_true ho
  refine (decode_command_reserved (by rwa [hlow])).trans ?_
  rw [hhigh, Laws.KeyOfEncoding.command_nibble hbw, BitVec.ofNat_toNat, BitVec.setWidth_eq]

end DecodeOfEncode

/-- Settles O1: the data of a write survives the bus, that of a command splits again into opcode and ignored
part. -/
theorem decodeOfEncodeIsIdentity : Obligations.DecodeOfEncodeIsIdentity := by
  unfold Obligations.DecodeOfEncodeIsIdentity
  intro b i h
  have hbw := bw_ge_four b
  cases i with
  | rd _ => rfl
  | cmdNop high =>
    obtain ⟨hlow, hhigh⟩ := command_data_parts (opcode := 0) hbw (by decide) h
    exact (decode_command_nop hlow).trans (congrArg _ hhigh)
  | cmdPowmod high =>
    obtain ⟨hlow, hhigh⟩ := command_data_parts (opcode := 1) hbw (by decide) h
    exact (decode_command_powmod hlow).trans (congrArg _ hhigh)
  | cmdClear high =>
    obtain ⟨hlow, hhigh⟩ := command_data_parts (opcode := 2) hbw (by decide) h
    exact (decode_command_clear hlow).trans (congrArg _ hhigh)
  | cmdRsvd opcode high =>
    obtain ⟨ho, hh⟩ := Bool.and_eq_true_iff.1 h
    exact decode_encode_cmdRsvd hbw ho hh
  | wrRsvd a data =>
    obtain ⟨ha, hd⟩ := Bool.and_eq_true_iff.1 h
    exact (decode_write_ofNat a hd).trans (decodeWrite_reserved (of_decide_eq_true ha) data)
  | wrId _ => exact decode_write_ofNat 0x0 h
  | wrStatus _ => exact decode_write_ofNat 0x2 h
  | wrIe _ => exact decode_write_ofNat 0x3 h
  | wrOpa _ => exact decode_write_ofNat 0x4 h
  | wrOpb _ => exact decode_write_ofNat 0x5 h
  | wrOpn _ => exact decode_write_ofNat 0x6 h
  | wrResult _ => exact decode_write_ofNat 0x7 h

/-! ## Encoding what was decoded -/

section EncodeOfDecode
variable {bw : Nat} (d : BitVec bw)

theorem fitsBus_toNat : fitsBus bw d.toNat = true := decide_eq_true d.isLt

theorem fitsHigh_toNat (hbw : 4 ≤ bw) : fitsHigh bw (d.toNat / 16) = true := by
  refine decide_eq_true (Nat.div_lt_of_lt_mul ?_)
  have hsplit : 2 ^ bw = 16 * 2 ^ (bw - 4) := by
    rw [show 16 = 2 ^ 4 from rfl, ← pow_add, Nat.add_sub_cancel' hbw]
  exact hsplit ▸ d.isLt

/-- A write to CMD is the encoding of its two parts. -/
theorem encodeCommand_parts {opcode : Nat} (h : d.toNat % 16 = opcode) :
    encodeCommand bw opcode (d.toNat / 16) = .write 0x1 d := by
  rw [encodeCommand, ← h, Nat.div_add_mod, BitVec.ofNat_toNat, BitVec.setWidth_eq]

theorem write_ofNat_toNat (a : Index) : Txn.write a (BitVec.ofNat bw d.toNat) = .write a d := by
  rw [BitVec.ofNat_toNat, BitVec.setWidth_eq]

/-- A write to CMD decodes to a well-formed command that encodes back to it. -/
theorem encode_decode_command (hbw : 4 ≤ bw) : (decode (.write 0x1 d)).wellFormed bw = true ∧
    encode bw (decode (.write 0x1 d)) = .write 0x1 d := by
  have hhigh := fitsHigh_toNat d hbw
  obtain h | h | h | h : d.toNat % 16 = 0 ∨ d.toNat % 16 = 1 ∨ d.toNat % 16 = 2 ∨ 3 ≤ d.toNat % 16 := by omega
  · rw [decode_command_nop h]; exact ⟨hhigh, encodeCommand_parts d h⟩
  · rw [decode_command_powmod h]; exact ⟨hhigh, encodeCommand_parts d h⟩
  · rw [decode_command_clear h]; exact ⟨hhigh, encodeCommand_parts d h⟩
  · have hopcode : (d.setWidth 4).toNat = d.toNat % 16 := BitVec.toNat_setWidth 4 d
    rw [decode_command_reserved h]
    exact ⟨Bool.and_eq_true_iff.2 ⟨decide_eq_true (hopcode ▸ h), hhigh⟩, encodeCommand_parts d hopcode.symm⟩

end EncodeOfDecode

/-- Settles O2: index by index, the write's data fits the bus and is read back from it. -/
theorem encodeOfDecodeIsIdentity : Obligations.EncodeOfDecodeIsIdentity := by
  unfold Obligations.EncodeOfDecodeIsIdentity
  intro b t
  cases t with
  | read a => exact ⟨rfl, rfl⟩
  | write a d =>
    have hfits := fitsBus_toNat d
    rcases index_cases a with rfl | rfl | rfl | rfl | rfl | rfl | rfl | rfl | ha
    case inr.inl => exact encode_decode_command d (bw_ge_four b)
    case inr.inr.inr.inr.inr.inr.inr.inr =>
      rw [decode_write, decodeWrite_reserved ha]
      exact ⟨Bool.and_eq_true_iff.2 ⟨decide_eq_true ha, hfits⟩, write_ofNat_toNat d a⟩
    all_goals exact ⟨hfits, write_ofNat_toNat d _⟩

/-! ## The opcode map (R75) -/

/-- Every row that accepts the key of a well-formed instruction's transaction names the instruction. -/
theorem row_mnemonic_of_encoding (i : Instr) : Laws.KeyOfEncoding.Statement i := by
  cases i with
  | rd a => exact Laws.KeyOfEncoding.rd a
  | wrId d => exact Laws.KeyOfEncoding.wrId d
  | cmdNop h => exact Laws.KeyOfEncoding.cmdNop h
  | cmdPowmod h => exact Laws.KeyOfEncoding.cmdPowmod h
  | cmdClear h => exact Laws.KeyOfEncoding.cmdClear h
  | cmdRsvd o h => exact Laws.KeyOfEncoding.cmdRsvd o h
  | wrStatus d => exact Laws.KeyOfEncoding.wrStatus d
  | wrIe d => exact Laws.KeyOfEncoding.wrIe d
  | wrOpa d => exact Laws.KeyOfEncoding.wrOpa d
  | wrOpb d => exact Laws.KeyOfEncoding.wrOpb d
  | wrOpn d => exact Laws.KeyOfEncoding.wrOpn d
  | wrResult d => exact Laws.KeyOfEncoding.wrResult d
  | wrRsvd a d => exact Laws.KeyOfEncoding.wrRsvd a d

/-- One row accepts the key of a read, and one that of a write, whatever the index and the nibble. -/
theorem countP_accepts_read (a : Index) :
    opcodeMap.countP (·.accepts (0#1 ++ a ++ 0#4 : BitVec (1 + 4 + 4))) = 1 := by
  revert a; decide

theorem countP_accepts_write (a : Index) (n : BitVec 4) :
    opcodeMap.countP (·.accepts (1#1 ++ a ++ n : BitVec (1 + 4 + 4))) = 1 := by
  revert a n; decide

theorem countP_accepts_key {bw : Nat} (t : Txn bw) : opcodeMap.countP (·.accepts t.key) = 1 := by
  cases t with
  | read a => exact countP_accepts_read a
  | write a d => exact countP_accepts_write a (d.setWidth 4)

/-- A list with one element that meets `p` has a unique such element. -/
theorem existsUnique_of_countP_eq_one {α : Type} {p : α → Bool} {l : List α} (h : l.countP p = 1) :
    ∃ x ∈ l, p x = true ∧ ∀ y ∈ l, p y = true → y = x := by
  rw [List.countP_eq_length_filter, List.length_eq_one_iff] at h
  obtain ⟨x, hx⟩ := h
  have hmem (y : α) : y ∈ l ∧ p y = true ↔ y = x := by rw [← List.mem_filter, hx, List.mem_singleton]
  obtain ⟨hl, hp⟩ := (hmem x).2 rfl
  exact ⟨x, hl, hp, fun y hy hpy => (hmem y).1 ⟨hy, hpy⟩⟩

/-- Settles O3: one row accepts the key, and as the transaction is the encoding of what it decodes to, the row
has that mnemonic. -/
theorem exactlyOneOpcodeRowMatches : Obligations.ExactlyOneOpcodeRowMatches := by
  unfold Obligations.ExactlyOneOpcodeRowMatches
  intro b t
  obtain ⟨row, hrow, haccepts, hunique⟩ := existsUnique_of_countP_eq_one (countP_accepts_key t)
  obtain ⟨hwf, hencode⟩ := encodeOfDecodeIsIdentity b t
  exact ⟨row, hrow, haccepts, row_mnemonic_of_encoding _ b hwf row hrow (by rwa [hencode]), hunique⟩

/-! ## The number of a transaction (log 10) -/

theorem testBit_eight_read_word (a : Index) : (16 * a.toNat).testBit 8 = false := by
  revert a; decide

/-- Bit 8 of a write's number is `we`. -/
theorem testBit_eight_write_word {x q r : Nat} (hq : q < 16) (hr : r < 16) :
    (512 * x + 256 + 16 * q + r).testBit 8 = true := by
  rw [Nat.testBit_eq_decide_div_mod_eq, decide_eq_true_iff]
  omega

/-- Settles O4: bit 8 tells a read from a write, and the fields of the number are its quotients and
remainders. -/
theorem transactionWordRoundTrip : Obligations.TransactionWordRoundTrip := by
  unfold Obligations.TransactionWordRoundTrip
  intro b t
  cases t with
  | read a =>
    have hindex : 16 * a.toNat / 16 = a.toNat := by omega
    rw [Txn.toWord, Txn.ofWord, testBit_eight_read_word, if_neg Bool.false_ne_true, hindex, BitVec.ofNat_toNat,
      BitVec.setWidth_eq]
  | write a d =>
    have ha : a.toNat < 16 := a.isLt
    have hr : d.toNat % 16 < 16 := Nat.mod_lt _ (by decide)
    rw [Txn.toWord, Txn.ofWord, if_pos (testBit_eight_write_word ha hr)]
    generalize hw : 512 * (d.toNat / 16) + 256 + 16 * a.toNat + d.toNat % 16 = word
    have hindex : word / 16 % 16 = a.toNat := by omega
    have hdata : 16 * (word / 512) + word % 16 = d.toNat := by omega
    rw [hdata, BitVec.ofNat_toNat, BitVec.setWidth_eq]
    exact congrArg (Txn.write · d) (BitVec.eq_of_toNat_eq hindex)

/-- Settles O5: the six words are closed terms, and the decoder is run on them. -/
theorem sampleWordsDecode : Obligations.SampleWordsDecode := by
  unfold Obligations.SampleWordsDecode
  decide

end Sys2Proof.Machine
end

section
/-! The invariant of the machine: it holds after reset and every step keeps it, so it holds in every reachable
state (10_state.md R26, R30, R33; 70_reset_and_hazards.md R197). -/

namespace Sys2Proof.Machine

/-! ## The error record (R26) -/

theorem errorRecordOk_raise {w : Nat} (e : Engine w) (k : ErrorKind) : errorRecordOk (e.raise k) :=
  ⟨iff_of_false (errorCode_ne_zero k) nofun, errorCode_le_five k⟩

theorem errorRecordOk_clearStatus {w : Nat} (e : Engine w) : errorRecordOk e.clearStatus :=
  ⟨iff_of_true rfl rfl, Nat.zero_le 5⟩

/-! ## What keeps the invariant -/

section EngineInv
variable {b : Build} {e : Engine b.width}

theorem engineInv_afterReset (b : Build) (wb wx wm wa : BitVec b.width) :
    engineInv b (Engine.afterReset wb wx wm wa) :=
  ⟨⟨iff_of_true rfl rfl, Nat.zero_le 5⟩, Nat.succ_pos _, nofun, fun _ => .inl rfl⟩

/-- An interface error, raised in any phase, keeps the invariant. -/
theorem engineInv_raise_interface {k : ErrorKind} (hk : k = .illegalCmd ∨ k = .busy) (h : engineInv b e) :
    engineInv b (e.raise k) := by
  obtain ⟨_, hresult, hrun, _⟩ := h
  exact ⟨errorRecordOk_raise e k, hresult, hrun, fun _ => .inr (hk.imp (congrArg errorCode) (congrArg errorCode))⟩

theorem engineInv_clearStatus (hp : e.phase = .idle) (h : engineInv b e) : engineInv b e.clearStatus := by
  obtain ⟨_, hresult, _⟩ := h
  exact ⟨errorRecordOk_clearStatus e, hresult, fun hr => absurd (hp.symm.trans hr) nofun, fun _ => .inl rfl⟩

/-- A refusal is recorded while IDLE, with DONE cleared. -/
theorem engineInv_refusal (k : ErrorKind) (hp : e.phase = .idle) (h : engineInv b e) :
    engineInv b (e.clearStatus.raise k) := by
  obtain ⟨_, hresult, _⟩ := h
  have hnrun : ¬ (e.clearStatus.raise k).phase = .run := fun hr => absurd (hp.symm.trans hr) nofun
  exact ⟨errorRecordOk_raise _ k, hresult, fun hr => absurd hr hnrun,
    fun hrd => absurd hrd (not_or_intro hnrun nofun)⟩

/-- A start has cleared the status before the run, and loads registers within the bounds. -/
theorem engineInv_start (ha : operandsAdmitted b e) (h : engineInv b e) :
    engineInv b (e.clearStatus.startRun (val b.signed e.opa) (val b.signed e.opb) (val b.signed e.opn)) := by
  obtain ⟨hguard, hn, hx⟩ := ha
  obtain ⟨_, hresult, _⟩ := h
  exact ⟨errorRecordOk_clearStatus e, hresult,
    fun _ => ⟨runBounds_startRun _ _ hn hguard (val_le_maxv b _) hx (val_le_maxv b _), rfl⟩, fun _ => .inl rfl⟩

/-- FINISH stores the accumulator, which the bounds of the run keep below NMAX. -/
theorem engineInv_finish (hp : e.phase = .run) (h : engineInv b e) : engineInv b e.finish := by
  obtain ⟨herror, _, hrun, hcode⟩ := h
  obtain ⟨⟨_, hmax, _, hacc, _⟩, _⟩ := hrun hp
  exact ⟨herror, hacc.trans_le hmax, nofun, fun _ => hcode (.inl hp)⟩

theorem engineInv_mulsq (hp : e.phase = .run) (h : engineInv b e) : engineInv b e.mulsq := by
  obtain ⟨herror, hresult, hrun, hcode⟩ := h
  obtain ⟨hbounds, hdone⟩ := hrun hp
  exact ⟨herror, hresult, fun _ => ⟨runBounds_mulsq hbounds, hdone⟩, hcode⟩

theorem engineInv_sq (hp : e.phase = .run) (h : engineInv b e) : engineInv b e.sq := by
  obtain ⟨herror, hresult, hrun, hcode⟩ := h
  obtain ⟨hbounds, hdone⟩ := hrun hp
  exact ⟨herror, hresult, fun _ => ⟨runBounds_sq hbounds, hdone⟩, hcode⟩

theorem engineInv_engineTurn (h : engineInv b e) : engineInv b (engineTurn e) := by
  rcases engineTurn_cases e with ⟨_, ht⟩ | ⟨hp, _, ht⟩ | ⟨hp, _, _, ht⟩ | ⟨hp, _, _, ht⟩ <;> rw [ht]
  · exact h
  · exact engineInv_finish hp h
  · exact engineInv_mulsq hp h
  · exact engineInv_sq hp h

theorem engineInv_effect (i : Instr) (h : engineInv b e) : engineInv b (effect b i e) := by
  rcases effect_cases b i e with ⟨_, _, ha, heff⟩ | ⟨_, hp, _, k, heff⟩ | ⟨_, _, heff⟩ | ⟨_, hp, heff⟩ |
    ⟨_, heff⟩ | ⟨_, _, heff⟩ | ⟨_, _, heff⟩ | ⟨_, _, heff⟩ | ⟨_, _, heff⟩ | ⟨_, _, _, heff⟩ <;> rw [heff]
  · exact engineInv_start ha h
  · exact engineInv_refusal k hp h
  · exact engineInv_raise_interface (.inr rfl) h
  · exact engineInv_clearStatus hp h
  · exact engineInv_raise_interface (.inl rfl) h
  -- a register write stores a field that the invariant does not read
  all_goals exact h

end EngineInv

/-- Settles O48: the engine's turn and every instruction keep the invariant of the engine record, and a reset
establishes it. -/
theorem stepKeepsTheInvariant : Obligations.StepKeepsTheInvariant := by
  unfold Obligations.StepKeepsTheInvariant
  intro s t hinv h
  rcases step_kinds h with ⟨_, _, _, _, rfl⟩ | ⟨x, _, _, _, _, _, rfl⟩ | ⟨_, _, _, _, _, rfl⟩
  · exact engineInv_engineTurn hinv
  · exact engineInv_effect (decode x) hinv
  · exact engineInv_afterReset s.build _ _ _ _

/-- Settles O47: the state after reset holds an `afterReset` record. -/
theorem resetMeetsTheInvariant : Obligations.ResetMeetsTheInvariant := by
  unfold Obligations.ResetMeetsTheInvariant
  exact ⟨fun b => engineInv_afterReset b 0 0 0 0, engineInv_afterReset Build.reference 0 0 0 0⟩

/-! ## Reachable states -/

theorem engineInv_of_reachable {b : Build} {s : State} (h : Reachable b s) :
    s.build = b ∧ engineInv s.build s.engine :=
  engine_invariant_of_reachable (P := engineInv) engineInv_afterReset (fun _ _ => engineInv_engineTurn)
    (fun _ i _ => engineInv_effect i) h

/-- NMAX fits in the non-negative half of the patterns when SIGNED. -/
theorem guardLimit_lt_half_of_signed {b : Build} (hs : b.signed = true) : guardLimit b < 2 ^ (b.width - 1) := by
  have hguard := guard_le_maxv b
  have hmax := maxv_of_signed rfl hs
  have hhalf := two_le_half b
  omega

/-- A pattern below NMAX reads the same signed and unsigned. -/
theorem val_of_lt_nmax {b : Build} {r : BitVec b.width} (h : r.toNat < nmax b) : val b.signed r = r.toNat := by
  refine val_of_no_sign_bit fun ⟨hs, hbit⟩ => ?_
  have hhalf := guardLimit_lt_half_of_signed hs
  have hlt : r.toNat < 2 ^ (b.width - 1) := by unfold nmax at h; omega
  rw [BitVec.getLsbD, Nat.testBit_lt_two_pow hlt] at hbit
  exact absurd hbit nofun

/-- Settles O49: the parts of the invariant, which every reachable state meets. -/
theorem reachableStatesAreSound : Obligations.ReachableStatesAreSound := by
  unfold Obligations.ReachableStatesAreSound
  intro b s h
  obtain ⟨rfl, ⟨hzero, hfive⟩, hresult, hrun, hcode⟩ := engineInv_of_reachable h
  exact ⟨rfl, hzero, hfive, hresult, val_of_lt_nmax hresult, fun hp => (hrun hp).2, hcode⟩

end Sys2Proof.Machine
end

section
/-! Arithmetic: the integer primitives, the reduction of a base, and the start of a run (00_scope.md R14,
41_commands.md R122, 42_engine.md R148). -/

namespace Sys2Proof.Machine

/-! ## The integer primitives (R14) -/

theorem dvd_sub_fmod {m : Int} (h : 0 < m) (x : Int) : m ∣ x - fmod x m := by
  rw [fmod_eq_emod h]; exact Int.dvd_self_sub_emod

/-- A number that is not 0 has its top bit at `bitlen - 1`. -/
theorem two_pow_bitlen_pred_le {x : Nat} (h : 0 < x) : 2 ^ (bitlen x - 1) ≤ x := by
  have hpos : 0 < bitlen x := (lt_bitlen_iff 0 x).2 h
  exact (lt_bitlen_iff _ x).1 (Nat.sub_one_lt_of_lt hpos)

theorem le_isqrt_of_mul_self_le {x r : Nat} (h : r * r ≤ x) : r ≤ isqrt x := by
  rw [isqrt_eq_natSqrt]; exact Nat.le_sqrt.2 h

/-- Settles O30: each primitive has its defining property. -/
theorem integerPrimitives : Obligations.IntegerPrimitives := by
  unfold Obligations.IntegerPrimitives
  exact ⟨fun x m h => ⟨fmod_nonneg h x, fmod_lt h x, dvd_sub_fmod h x⟩,
    fun x => ⟨(isqrt_spec x).1, fun _ => le_isqrt_of_mul_self_le⟩, bitlen_zero,
    fun x h => ⟨two_pow_bitlen_pred_le h, lt_two_pow_bitlen x⟩⟩

/-! ## The reduction of a base (R148) -/

theorem fmod_eq_zero_of_dvd {n a : Int} (hn : 0 < n) (h : n ∣ a) : fmod a n = 0 := by
  rw [fmod_eq_emod hn]; exact Int.emod_eq_zero_of_dvd h

/-- The remainder of a negative base that the modulus does not divide. -/
theorem fmod_of_neg {n a : Int} (hn : 0 < n) (ha : a < 0) (h : ¬ n ∣ |a|) : fmod a n = n - |a| % n := by
  have hneg : a = -|a| := by rw [abs_of_neg ha, neg_neg]
  have habs : (n.natAbs : Int) = n := Int.natAbs_of_nonneg hn.le
  rw [fmod_eq_emod hn]
  conv_lhs => rw [hneg]
  rw [Int.neg_emod, if_neg h, habs]

/-- Settles O31: the remainder is floor-correct, and that of a negative base is the complement of the
remainder of its absolute value. -/
theorem baseReductionIsFloorCorrect : Obligations.BaseReductionIsFloorCorrect := by
  unfold Obligations.BaseReductionIsFloorCorrect
  exact fun a n hn => ⟨fmod_nonneg hn a, fmod_lt hn a, dvd_sub_fmod hn a,
    fun ha => ⟨fun hdvd => fmod_eq_zero_of_dvd hn ((dvd_abs n a).1 hdvd), fmod_of_neg hn ha⟩⟩

/-! ## The start of a run (R122) -/

theorem fmod_one {n : Int} (hn : 0 < n) : fmod 1 n = if n = 1 then 0 else 1 := by
  rw [fmod_eq_emod hn]
  split
  · next h => rw [h, Int.emod_one]
  · exact Int.emod_eq_of_lt (by decide) (by omega)

/-- Settles O22: the accepted POWMOD clears the status and loads the working registers. -/
theorem powmodStartsARun : Obligations.PowmodStartsARun := by
  unfold Obligations.PowmodStartsARun
  intro s high hidle ha
  have ⟨_, hn, hx⟩ := ha
  obtain ⟨hmod, hbase, hexp, hacc⟩ := startRun_loads s.engine.clearStatus (val s.build.signed s.engine.opa) hn
    (val_le_maxv _ _) hx (val_le_maxv _ _)
  refine ⟨_, exec_cmdPowmod_idle high hidle, ?_⟩
  rw [acceptPowmod_starts ha]
  exact ⟨rfl, rfl, rfl, rfl, hmod, hbase, hexp, hacc.trans (fmod_one hn), rfl, clearStatus_sameOperands _⟩

/-! ## The inverse for a prime modulus (R149) -/

/-- Fermat's little theorem for the exponent `p - 2`: one more factor of the base gives 1. -/
theorem fmod_pow_sub_two_mul_self {p : Nat} (hp : p.Prime) {a : Int} (ha : ¬ (p : Int) ∣ a) :
    fmod (fmod (a ^ (p - 2)) p * a) p = 1 := by
  have htwo := hp.two_le
  have hpos : (0 : Int) < p := by exact_mod_cast hp.pos
  have hcoprime : IsCoprime a p := ((Nat.prime_iff_prime_int.1 hp).coprime_iff_not_dvd.2 ha).symm
  have hfermat : a ^ (p - 1) % p = 1 % p := Int.ModEq.pow_card_sub_one_eq_one hp hcoprime
  have hexp : p - 2 + 1 = p - 1 := by omega
  calc fmod (fmod (a ^ (p - 2)) p * a) p
      = fmod (a ^ (p - 2) * a) p := by simpa only [pow_one] using fmod_mul_congr hpos (fmod_pow hpos _ 1) rfl
    _ = a ^ (p - 1) % p := by rw [← pow_succ, hexp, fmod_eq_emod hpos]
    _ = 1 := by rw [hfermat]; exact Int.emod_eq_of_lt (by decide) (by exact_mod_cast htwo)

/-- Settles O46: the value of the run is a power of the base with exponent `n - 2`, and `n` is its own natural
number. -/
theorem fermatInverse : Obligations.FermatInverse := by
  unfold Obligations.FermatInverse
  intro b e ⟨_, hn, _⟩ hprime hexp hdvd
  have hcast : ((val b.signed e.opn).toNat : Int) = val b.signed e.opn := Int.toNat_of_nonneg hn.le
  have hexp' : (val b.signed e.opb).toNat = (val b.signed e.opn).toNat - 2 := by rw [hexp]; omega
  have h := fmod_pow_sub_two_mul_self hprime (by rwa [hcast])
  rwa [← hexp', hcast] at h

end Sys2Proof.Machine
end

section
/-! The step: what it runs, what it refuses, and what each part of the state changes by (20_memory.md R51, R53,
R58; 10_state.md R27, R29, R32, R33). -/

namespace Sys2Proof.Machine

/-! ## The step runs the first event -/

/-- Settles O6: one lemma per event, and the silent step. -/
theorem stepRunsTheFirstEvent : Obligations.StepRunsTheFirstEvent := by
  unfold Obligations.StepRunsTheFirstEvent
  exact fun s rest => ⟨fun _ => step_host, step_engine, fun _ => step_reset, step_silent⟩

/-- Settles O7: the word's transaction is the first event, and the events behind it are those of before. -/
theorem fetchWordIsRunNext : Obligations.FetchWordIsRunNext := by
  unfold Obligations.FetchWordIsRunNext
  exact fun s nbits w => step_host (s := s.withFetchWord nbits w) rfl

theorem step_splitAccess {s : State} {rest : List (Event s.build.bw)} (h : s.events = .splitAccess :: rest) :
    step s = .refused .splitAccess := by
  unfold step; rw [h]

theorem step_powerRemoved {s : State} {rest : List (Event s.build.bw)} (h : s.events = .powerRemoved :: rest) :
    step s = .refused .powerRemoved := by
  unfold step; rw [h]

/-- Settles O8: the events that are not refused each answer a next state, as does the silent step. -/
theorem stepRefusesOnlyPlatformEvents : Obligations.StepRefusesOnlyPlatformEvents := by
  unfold Obligations.StepRefusesOnlyPlatformEvents
  refine fun s => ⟨fun _ => step_splitAccess, fun _ => step_powerRemoved, fun hsplit hpower => ?_⟩
  cases he : s.events with
  | nil => exact ⟨_, step_silent he⟩
  | cons ev rest =>
    cases ev with
    | host x => exact ⟨_, (step_host he).trans (exec_eq _ _)⟩
    | engine => exact ⟨_, step_engine he⟩
    | reset p => exact ⟨_, step_reset he⟩
    | splitAccess => exact absurd he (hsplit rest)
    | powerRemoved => exact absurd he (hpower rest)

theorem step_build {s t : State} (h : step s = .next t) : t.build = s.build := by
  rcases step_kinds h with ⟨_, _, _, _, rfl⟩ | ⟨_, _, _, _, _, _, rfl⟩ | ⟨_, _, _, _, _, rfl⟩ <;> rfl

/-- Settles O9: no kind of step writes the build. -/
theorem buildNeverChanges : Obligations.BuildNeverChanges := by
  unfold Obligations.BuildNeverChanges
  exact fun s t h => ⟨step_build h, congrArg idWord (step_build h)⟩

/-! ## Storing writes (20_memory.md R53, 10_state.md R32) -/

/-- Settles O11: the second store writes the same field with the same value. -/
theorem storingWritesAreIdempotent : Obligations.StoringWritesAreIdempotent := by
  unfold Obligations.StoringWritesAreIdempotent
  intro s i d hi
  rcases hi with rfl | rfl | rfl | rfl
  · exact ⟨_, exec_wrIe d s, exec_wrIe d _⟩
  · exact ⟨_, exec_wrOpa d s, exec_wrOpa d _⟩
  · exact ⟨_, exec_wrOpb d s, exec_wrOpb d _⟩
  · exact ⟨_, exec_wrOpn d s, exec_wrOpn d _⟩

/-- The response to a read, among the earlier ones. -/
theorem responses_respond_toNat (s : State) {r : BitVec s.build.bw} {v : Nat} (h : r.toNat = v) :
    (s.respond r).responses.map BitVec.toNat = v :: s.responses.map BitVec.toNat :=
  congrArg (· :: s.responses.map BitVec.toNat) h

/-- Settles O14: the read answers the stored pattern's number, which is that of the data's low bits. -/
theorem operandReadsBackZeroExtended : Obligations.OperandReadsBackZeroExtended := by
  unfold Obligations.OperandReadsBackZeroExtended
  intro s d i a hia
  rcases hia with ⟨rfl, rfl⟩ | ⟨rfl, rfl⟩ | ⟨rfl, rfl⟩
  · exact ⟨_, _, exec_wrOpa d s, exec_rd _ _, responses_respond_toNat _ (readReg_opa _ _)⟩
  · exact ⟨_, _, exec_wrOpb d s, exec_rd _ _, responses_respond_toNat _ (readReg_opb _ _)⟩
  · exact ⟨_, _, exec_wrOpn d s, exec_rd _ _, responses_respond_toNat _ (readReg_opn _ _)⟩

/-! ## The engine's slot (42_engine.md R140) -/

/-- Settles O33: an idle engine's turn is no step, and a running engine's turn is the step its exponent
register selects. -/
theorem engineStepSelection : Obligations.EngineStepSelection := by
  unfold Obligations.EngineStepSelection
  refine fun s rest he => ⟨fun hp => ?_, step_finish he, step_mulsq he, step_sq he⟩
  rw [step_engine he, engineTurn_idle hp]
  rfl

/-! ## What changes RESULT, the working registers and the operands -/

/-- The engine's turn keeps the operands, and RESULT unless it is a FINISH. -/
theorem engineTurn_keeps {w : Nat} (e : Engine w) : sameOperands (engineTurn e) e ∧
    ((e.phase = .run ∧ e.wexp.toNat = 0) ∨ (engineTurn e).result = e.result) := by
  rcases engineTurn_cases e with ⟨_, ht⟩ | ⟨hp, hx, ht⟩ | ⟨_, _, _, ht⟩ | ⟨_, _, _, ht⟩ <;> rw [ht]
  · exact ⟨⟨rfl, rfl, rfl, rfl⟩, .inr rfl⟩
  · exact ⟨⟨rfl, rfl, rfl, rfl⟩, .inl ⟨hp, hx⟩⟩
  · exact ⟨⟨rfl, rfl, rfl, rfl⟩, .inr rfl⟩
  · exact ⟨⟨rfl, rfl, rfl, rfl⟩, .inr rfl⟩

/-- No instruction writes RESULT, and each of IE and the operands is written by its own write only. -/
theorem effect_keeps (b : Build) (i : Instr) (e : Engine b.width) :
    (effect b i e).result = e.result ∧ ((∀ d, i ≠ .wrIe d) → (effect b i e).ie = e.ie) ∧
      ((∀ d, i ≠ .wrOpa d) → (effect b i e).opa = e.opa) ∧
      ((∀ d, i ≠ .wrOpb d) → (effect b i e).opb = e.opb) ∧
      ((∀ d, i ≠ .wrOpn d) → (effect b i e).opn = e.opn) := by
  cases i with
  | cmdPowmod high =>
    cases hp : e.phase
    · obtain ⟨hresult, hopa, hopb, hopn, hie⟩ := acceptPowmod_keeps b e
      rw [effect_cmdPowmod_idle high hp]
      exact ⟨hresult, fun _ => hie, fun _ => hopa, fun _ => hopb, fun _ => hopn⟩
    · rw [effect_cmdPowmod_run high hp]
      exact ⟨rfl, fun _ => rfl, fun _ => rfl, fun _ => rfl, fun _ => rfl⟩
  | cmdClear high =>
    cases hp : e.phase
    · rw [effect_cmdClear_idle high hp]
      exact ⟨rfl, fun _ => rfl, fun _ => rfl, fun _ => rfl, fun _ => rfl⟩
    · rw [effect_cmdClear_run high hp]
      exact ⟨rfl, fun _ => rfl, fun _ => rfl, fun _ => rfl, fun _ => rfl⟩
  | wrIe d => exact ⟨rfl, fun hn => absurd rfl (hn d), fun _ => rfl, fun _ => rfl, fun _ => rfl⟩
  | wrOpa d => exact ⟨rfl, fun _ => rfl, fun hn => absurd rfl (hn d), fun _ => rfl, fun _ => rfl⟩
  | wrOpb d => exact ⟨rfl, fun _ => rfl, fun _ => rfl, fun hn => absurd rfl (hn d), fun _ => rfl⟩
  | wrOpn d => exact ⟨rfl, fun _ => rfl, fun _ => rfl, fun _ => rfl, fun hn => absurd rfl (hn d)⟩
  | _ => exact ⟨rfl, fun _ => rfl, fun _ => rfl, fun _ => rfl, fun _ => rfl⟩

theorem step_of_finishes {s t : State} (h : step s = .next t) (hf : finishes s) :
    ∃ evs, t = { s with engine := s.engine.finish, events := evs } := by
  obtain ⟨heng, hp, hx⟩ := hf
  rcases step_kinds h with ⟨evs, _, _, _, rfl⟩ | ⟨_, _, _, hn, _⟩ | ⟨_, _, _, hn, _⟩
  · exact ⟨evs, by rw [engineTurn_last hp hx]⟩
  · exact absurd heng hn
  · exact absurd heng hn

/-- RESULT is kept by every step but a FINISH and a reset. -/
theorem step_result_kept {s t : State} (h : step s = .next t) (hkept : ¬ (finishes s ∨ nextIsReset s)) :
    t.engine.result.toNat = s.engine.result.toNat := by
  rcases step_kinds h with ⟨_, heng, _, _, rfl⟩ | ⟨x, _, _, _, _, _, rfl⟩ | ⟨_, _, hr, _, _, rfl⟩
  · obtain ⟨_, hlast | hresult⟩ := engineTurn_keeps s.engine
    · exact absurd (.inl ⟨heng, hlast⟩) hkept
    · exact congrArg BitVec.toNat hresult
  · exact congrArg BitVec.toNat (effect_keeps s.build (decode x) s.engine).1
  · exact absurd (.inr hr) hkept

/-- Settles O53: a FINISH stores the accumulator, and no other step but a reset writes RESULT. -/
theorem resultChangesOnlyAtFinishOrReset : Obligations.ResultChangesOnlyAtFinishOrReset := by
  unfold Obligations.ResultChangesOnlyAtFinishOrReset
  refine fun s t h => ⟨fun hf => ?_, fun hchanged => by_contra fun hkept => hchanged (step_result_kept h hkept)⟩
  obtain ⟨_, rfl⟩ := step_of_finishes h hf
  rfl

/-- A step that is no start, no turn of a running engine and no reset keeps the run. -/
theorem step_sameRun {s t : State} (h : step s = .next t) (hstart : ¬ startsRun s)
    (hturn : ¬ (nextIsEngine s ∧ s.engine.phase = .run)) (hreset : ¬ nextIsReset s) :
    ∃ e evs rs, t = { s with engine := e, events := evs, responses := rs } ∧ sameRun e s.engine := by
  rcases step_kinds h with ⟨evs, heng, _, _, rfl⟩ | ⟨x, rest, _, _, _, hi, rfl⟩ | ⟨_, _, hr, _, _, _⟩
  · have hp := phase_ne_run_iff.1 fun hp => hturn ⟨heng, hp⟩
    exact ⟨s.engine, evs, s.responses, by rw [engineTurn_idle hp], rfl, rfl, rfl, rfl, rfl⟩
  · rcases effect_run_cases s.build (decode x) s.engine with ⟨⟨high, hx⟩, hp, ha, _⟩ | ⟨_, hsame⟩
    · exact absurd ⟨⟨⟨high, (hi _).2 hx.symm⟩, hp⟩, ha⟩ hstart
    · exact ⟨_, rest, _, rfl, hsame⟩
  · exact absurd hr hreset

/-- Settles O54: outside a start, a turn of a running engine and a reset, a step keeps the run. -/
theorem workingRegistersWrittenOnlyByTheRun : Obligations.WorkingRegistersWrittenOnlyByTheRun := by
  unfold Obligations.WorkingRegistersWrittenOnlyByTheRun
  intro s t h hstart hturn hreset
  obtain ⟨e, _, _, rfl, _, hbase, hexp, hmod, hacc⟩ := step_sameRun h hstart hturn hreset
  exact ⟨congrArg BitVec.toNat hmod, congrArg BitVec.toNat hbase, congrArg BitVec.toNat hexp,
    congrArg BitVec.toNat hacc⟩

/-- Settles O56: the engine's turn keeps IE and the operands, and an instruction keeps those it does not
write. -/
theorem operandsChangeOnlyByTheirWrites : Obligations.OperandsChangeOnlyByTheirWrites := by
  unfold Obligations.OperandsChangeOnlyByTheirWrites
  intro s t h hreset
  rcases step_kinds h with ⟨_, _, _, _, rfl⟩ | ⟨x, _, _, _, _, hi, rfl⟩ | ⟨_, _, hr, _, _, _⟩
  · obtain ⟨⟨hopa, hopb, hopn, hie⟩, _⟩ := engineTurn_keeps s.engine
    exact ⟨fun _ => hie, fun _ => congrArg _ hopa, fun _ => congrArg _ hopb, fun _ => congrArg _ hopn⟩
  · obtain ⟨_, hie, hopa, hopb, hopn⟩ := effect_keeps s.build (decode x) s.engine
    have hne {f : Nat → Instr} (hn : ∀ d, ¬ nextInstr s (f d)) (d : Nat) : decode x ≠ f d :=
      fun hd => hn d ((hi _).2 hd.symm)
    exact ⟨fun hn => hie (hne hn), fun hn => congrArg _ (hopa (hne hn)), fun hn => congrArg _ (hopb (hne hn)),
      fun hn => congrArg _ (hopn (hne hn))⟩
  · exact absurd hr hreset

/-! ## Reset, and the order of one clock edge -/

theorem resetResponses_of_no_read {bw : Nat} (fresh : Nat) (responses : List (BitVec bw)) {p : Option (Txn bw)}
    (h : ∀ a, p ≠ some (.read a)) : resetResponses fresh responses p = responses := by
  cases p with
  | none => rfl
  | some x =>
    cases x with
    | read a => exact absurd rfl (h a)
    | write _ _ => rfl

/-- Settles O57: the engine after the step is `freshlyReset`, and only a read adds a response. -/
theorem resetSetsEveryRegister : Obligations.ResetSetsEveryRegister := by
  unfold Obligations.ResetSetsEveryRegister
  intro s p rest h
  obtain ⟨hdone, herr, hcode⟩ := freshlyReset_status s.build.width s.fresh
  refine ⟨_, _, _, step_reset h, freshlyReset_ie _ _, rfl, rfl, rfl, rfl, hdone, herr, hcode,
    freshlyReset_phase _ _, irq_freshlyReset _ _, statusWord_freshlyReset _ _, resetResponses_of_no_read _ _, ?_⟩
  rintro a rfl
  exact ⟨_, rfl⟩

/-- A cycle without reset is the transaction, then the engine's turn. -/
theorem cycleEvents_host_engine {bw : Nat} (x : Txn bw) : cycleEvents false (some x) true = [.host x, .engine] :=
  rfl

/-- Settles O58: the two events of the cycle are run in order, and a reset is the only event of its cycle. -/
theorem sameEdgeOrder : Obligations.SameEdgeOrder := by
  unfold Obligations.SameEdgeOrder
  refine fun s x rest => ⟨fun h => ⟨_, exec_eq _ _, ?_⟩, fun _ => step_of_resetCycle⟩
  rw [cycleEvents_host_engine] at h
  exact (run_succ ((step_host h).trans (exec_eq _ _)) 1).trans (run_succ (step_engine rfl) 0)

end Sys2Proof.Machine
end

section
/-! A run left to the engine: its end and its value, what a poll sees of it, and the pseudo-instruction `powmod`
(42_engine.md R145, R146; 20_memory.md R59 to R61; 30_encoding.md R79). -/

namespace Sys2Proof.Machine

/-! ## The turns of a run -/

theorem sameVisible_refl {w : Nat} (e : Engine w) : sameVisible e e :=
  ⟨⟨rfl, rfl, rfl, rfl⟩, ⟨rfl, rfl, rfl⟩, rfl, rfl⟩

theorem sameVisible_trans {w : Nat} {e f g : Engine w} (hef : sameVisible e f) (hfg : sameVisible f g) :
    sameVisible e g := by
  obtain ⟨⟨hopa, hopb, hopn, hie⟩, ⟨hdone, herr, hcode⟩, hphase, hresult⟩ := hef
  obtain ⟨⟨hopa', hopb', hopn', hie'⟩, ⟨hdone', herr', hcode'⟩, hphase', hresult'⟩ := hfg
  exact ⟨⟨hopa.trans hopa', hopb.trans hopb', hopn.trans hopn', hie.trans hie'⟩,
    ⟨hdone.trans hdone', herr.trans herr', hcode.trans hcode'⟩, hphase.trans hphase', hresult.trans hresult'⟩

section Turns
variable {w : Nat} {e : Engine w}

/-- What holds of a running engine, and is kept by every turn but the last, holds up to the last turn. -/
theorem engineTurn_iterate_induction {P : Engine w → Prop}
    (inner : ∀ f : Engine w, f.phase = .run → f.wexp.toNat ≠ 0 → P f → P (engineTurn f)) (hp : e.phase = .run)
    (h : P e) {k : Nat} (hk : k ≤ bitlen e.wexp.toNat) : P (engineTurn^[k] e) := by
  induction k with
  | zero => exact h
  | succ k ih =>
    have hrun := (engineTurn_iterate_phase_run_iff hp (k + 1)).2 hk
    rw [Function.iterate_succ_apply'] at hrun ⊢
    obtain ⟨hp', hx⟩ := (engineTurn_phase_run_iff _).1 hrun
    exact inner _ hp' hx (ih (Nat.le_of_succ_le hk))

/-- Up to its last turn, a run changes nothing that the host sees. -/
theorem engineTurn_iterate_sameVisible (hp : e.phase = .run) {k : Nat} (hk : k ≤ bitlen e.wexp.toNat) :
    sameVisible (engineTurn^[k] e) e := by
  refine engineTurn_iterate_induction (P := (sameVisible · e)) (fun f hp hx hf => ?_) hp (sameVisible_refl e) hk
  obtain ⟨_, _, _, hvisible⟩ := engineTurn_inner hp hx
  exact sameVisible_trans hvisible hf

theorem engineTurn_iterate_loopInv {a : Int} {x : Nat} {n : Int} (hp : e.phase = .run) (h : loopInv e a x n)
    {k : Nat} (hk : k ≤ bitlen e.wexp.toNat) : loopInv (engineTurn^[k] e) a x n :=
  engineTurn_iterate_induction (P := (loopInv · a x n)) (fun _ _ hx hf => loopInv_engineTurn hf hx) hp h hk

/-- No exponent bit is left for the last turn. -/
theorem engineTurn_iterate_bitlen_wexp (hp : e.phase = .run) :
    (engineTurn^[bitlen e.wexp.toNat] e).wexp.toNat = 0 := by
  rw [(engineTurn_iterate_wexp hp _).2, Nat.div_eq_of_lt (lt_two_pow_bitlen _)]

/-- Turn `bitlen(w.exp) + 1` is the FINISH, and the turns after it pass. -/
theorem engineTurn_iterate_ended (hp : e.phase = .run) {k : Nat} (hk : bitlen e.wexp.toNat < k) :
    engineTurn^[k] e = (engineTurn^[bitlen e.wexp.toNat] e).finish := by
  have hrun := (engineTurn_iterate_phase_run_iff hp _).2 (le_refl (bitlen e.wexp.toNat))
  obtain ⟨j, rfl⟩ := Nat.exists_eq_add_of_lt hk
  rw [Nat.add_right_comm, Nat.add_comm, Function.iterate_add_apply, Function.iterate_succ_apply',
    engineTurn_last hrun (engineTurn_iterate_bitlen_wexp hp), engineTurn_iterate_idle rfl]

end Turns

/-! ## A run from its start -/

section Started
variable {b : Build} {e : Engine b.width} {k : Nat}

theorem acceptPowmod_clears_error (ha : operandsAdmitted b e) :
    (acceptPowmod b e).err = false ∧ (acceptPowmod b e).errcode = 0 := by
  rw [acceptPowmod_starts ha]; exact ⟨rfl, rfl⟩

/-- While turns of a started run are left, BUSY is 1, RESULT is the previous one and DONE is clear. -/
theorem started_run_goes_on (ha : operandsAdmitted b e) (hk : k ≤ bitlen (val b.signed e.opb).toNat) :
    (engineTurn^[k] (acceptPowmod b e)).phase = .run ∧
      (engineTurn^[k] (acceptPowmod b e)).result = e.result ∧
      (engineTurn^[k] (acceptPowmod b e)).done = false := by
  obtain ⟨hrun, _⟩ := acceptPowmod_loopInv ha
  obtain ⟨hresult, _⟩ := acceptPowmod_keeps b e
  rw [← acceptPowmod_wexp ha] at hk
  obtain ⟨_, ⟨hdone, _⟩, hphase, hresult'⟩ := engineTurn_iterate_sameVisible hrun hk
  exact ⟨hphase.trans hrun, hresult'.trans hresult, hdone.trans (acceptPowmod_done b e)⟩

/-- After its last turn, a started run has finished with its value in the accumulator and no error. -/
theorem started_run_ends (ha : operandsAdmitted b e) (hk : bitlen (val b.signed e.opb).toNat < k) :
    ∃ f : Engine b.width, engineTurn^[k] (acceptPowmod b e) = f.finish ∧
      (f.wacc.toNat : Int) = powModValue b e ∧ f.err = false ∧ f.errcode = 0 ∧ f.ie = e.ie := by
  obtain ⟨hrun, hinv⟩ := acceptPowmod_loopInv ha
  rw [← acceptPowmod_wexp ha] at hk
  have hlast := le_refl (bitlen (acceptPowmod b e).wexp.toNat)
  have hvalue := wacc_of_loopInv_of_wexp_zero (engineTurn_iterate_loopInv hrun hinv hlast)
    (engineTurn_iterate_bitlen_wexp hrun)
  obtain ⟨⟨_, _, _, hie⟩, ⟨_, herr, hcode⟩, _⟩ := engineTurn_iterate_sameVisible hrun hlast
  obtain ⟨_, _, _, _, hie'⟩ := acceptPowmod_keeps b e
  obtain ⟨herr', hcode'⟩ := acceptPowmod_clears_error ha
  exact ⟨_, engineTurn_iterate_ended hrun hk, hvalue, herr.trans herr', hcode.trans hcode', hie.trans hie'⟩

end Started

/-! ## A run with no event pending (log 4) -/

/-- With no event pending, every step is the engine's turn. -/
theorem run_silent {s : State} (he : s.events = []) (k : Nat) :
    Sys2Proof.core.run k s = .next (s.withEngine (engineTurn^[k] s.engine)) := by
  induction k generalizing s with
  | zero => rfl
  | succ k ih => exact (run_succ (step_silent he) k).trans (ih (s := s.withEngine (engineTurn s.engine)) he)

/-- Settles O39: the last of the turns is the FINISH. -/
theorem runTerminatesWhenHostIsSilent : Obligations.RunTerminatesWhenHostIsSilent := by
  unfold Obligations.RunTerminatesWhenHostIsSilent
  intro s hp he
  refine ⟨_, run_silent he _, ?_⟩
  rw [withEngine_engine, engineTurn_iterate_ended hp (Nat.lt_add_one _)]
  exact ⟨rfl, rfl⟩

/-- Settles O40: the started run finishes with its value, whose corners are those of `powModValue`. -/
theorem runComputesThePower : Obligations.RunComputesThePower := by
  unfold Obligations.RunComputesThePower
  intro s high hidle ha he
  have ⟨_, hn, _⟩ := ha
  obtain ⟨f, hend, hvalue, herr, _⟩ := started_run_ends ha (Nat.lt_add_one _)
  have hresult : (f.finish.result.toNat : Int) = powModValue s.build s.engine := hvalue
  have hzero (h0 : powModValue s.build s.engine = 0) : f.finish.result = 0 :=
    BitVec.eq_of_toNat_eq (Int.natCast_eq_zero.1 (hresult.trans h0))
  have hrun : Sys2Proof.core.run (bitlen (val s.build.signed s.engine.opb).toNat + 1)
      (s.withEngine (acceptPowmod s.build s.engine)) = .next (s.withEngine f.finish) := by
    rw [← hend]
    exact run_silent (s := s.withEngine (acceptPowmod s.build s.engine)) he _
  exact ⟨_, _, exec_cmdPowmod_idle high hidle, hrun, hresult, powModValue_nonneg hn, powModValue_lt hn,
    rfl, rfl, herr,
    fun h1 => hzero (powModValue_of_modulus_one h1), fun h0 => hresult.trans (powModValue_of_exponent_zero h0),
    fun hbase hpos => hzero (powModValue_of_base_zero hbase hpos)⟩

/-! ## Polling (20_memory.md R61) -/

/-- Of a schedule of reads and engine turns, only the turns touch the engine record. -/
theorem foldl_afterOrdinary_of_reads {b : Build} (sched : List (Event b.bw)) (e : Engine b.width)
    (h : ∀ ev ∈ sched, ev = .engine ∨ ∃ a, ev = .host (.read a)) :
    sched.foldl (afterOrdinary b) e = engineTurn^[sched.count .engine] e := by
  induction sched generalizing e with
  | nil => rfl
  | cons ev sched ih =>
    have ih' := fun f => ih f fun ev' hev' => h ev' (List.mem_cons_of_mem ev hev')
    rcases h ev List.mem_cons_self with rfl | ⟨a, rfl⟩
    · rw [List.count_cons_self, Function.iterate_succ_apply]
      exact ih' (engineTurn e)
    · rw [List.count_cons_of_ne (show Event.host (Txn.read a) ≠ .engine from nofun)]
      exact ih' e

/-- Settles O42: after `k` turns the run goes on while `k` is at most `bitlen(b)`, and has ended from then on. -/
theorem pollingSeesTheResultOnceBusyIsClear : Obligations.PollingSeesTheResultOnceBusyIsClear := by
  unfold Obligations.PollingSeesTheResultOnceBusyIsClear
  intro s high sched rest hidle ha he hsched
  have hordinary : ∀ ev ∈ sched, ordinary ev = true := fun ev hev => by
    rcases hsched ev hev with rfl | ⟨a, rfl⟩ <;> rfl
  obtain ⟨rs, hrun⟩ := run_ordinary (s := s.withEngine (acceptPowmod s.build s.engine)) he hordinary
  refine ⟨_, _, exec_cmdPowmod_idle high hidle, hrun, ?_⟩
  simp only [withEngine_build, withEngine_engine, foldl_afterOrdinary_of_reads sched _ hsched, busy_eq_true_iff,
    busy_eq_false_iff]
  by_cases hk : sched.count .engine ≤ bitlen (val s.build.signed s.engine.opb).toNat
  · obtain ⟨hp, hresult, hdone⟩ := started_run_goes_on ha hk
    exact ⟨fun hi => absurd (hi.symm.trans hp) nofun, fun _ => ⟨congrArg _ hresult, hdone⟩, iff_of_true hp hk⟩
  · obtain ⟨f, hend, hvalue, herr, _⟩ := started_run_ends ha (not_le.1 hk)
    rw [hend]
    exact ⟨fun _ => ⟨hvalue, rfl, herr⟩, nofun, iff_of_false nofun hk⟩

/-! ## What commutes with the engine's turns (20_memory.md R60, 41_commands.md R125, R126) -/

/-- An update that keeps what the engine selects its step by, and commutes with the three steps, commutes with
the engine's turn. -/
theorem engineTurn_commute {w : Nat} {f : Engine w → Engine w} (hphase : ∀ e, (f e).phase = e.phase)
    (hexp : ∀ e, (f e).wexp = e.wexp) (hfinish : ∀ e, (f e).finish = f e.finish)
    (hmulsq : ∀ e, (f e).mulsq = f e.mulsq) (hsq : ∀ e, (f e).sq = f e.sq) :
    Function.Commute engineTurn f := by
  intro e
  cases hp : e.phase
  · rw [engineTurn_idle hp, engineTurn_idle ((hphase e).trans hp)]
  · rw [engineTurn_run hp, engineTurn_run ((hphase e).trans hp), runStep, runStep, hexp]
    split
    · exact hfinish e
    · split
      · exact hmulsq e
      · exact hsq e

section Commute
variable {w : Nat} (v : BitVec w)

theorem engineTurn_commute_setOpa : Function.Commute engineTurn (Engine.setOpa · v) :=
  engineTurn_commute (fun _ => rfl) (fun _ => rfl) (fun _ => rfl) (fun _ => rfl) (fun _ => rfl)

theorem engineTurn_commute_setOpb : Function.Commute engineTurn (Engine.setOpb · v) :=
  engineTurn_commute (fun _ => rfl) (fun _ => rfl) (fun _ => rfl) (fun _ => rfl) (fun _ => rfl)

theorem engineTurn_commute_setOpn : Function.Commute engineTurn (Engine.setOpn · v) :=
  engineTurn_commute (fun _ => rfl) (fun _ => rfl) (fun _ => rfl) (fun _ => rfl) (fun _ => rfl)

theorem engineTurn_commute_raise (k : ErrorKind) :
    Function.Commute engineTurn (Engine.raise (w := w) · k) :=
  engineTurn_commute (fun _ => rfl) (fun _ => rfl) (fun _ => rfl) (fun _ => rfl) (fun _ => rfl)

end Commute

/-- Settles O43: each operand store commutes with one turn, so with any number. -/
theorem operandWritesCommuteWithEngineSteps : Obligations.OperandWritesCommuteWithEngineSteps := by
  unfold Obligations.OperandWritesCommuteWithEngineSteps
  exact fun w e v k => ⟨(engineTurn_commute_setOpa v).iterate_left k e,
    (engineTurn_commute_setOpb v).iterate_left k e, (engineTurn_commute_setOpn v).iterate_left k e⟩

/-- Settles O44: raising an error commutes with one turn, so with any number. -/
theorem rejectedCommandsLeaveTheRunAlone : Obligations.RejectedCommandsLeaveTheRunAlone := by
  unfold Obligations.RejectedCommandsLeaveTheRunAlone
  exact fun w e kind k => (engineTurn_commute_raise kind).iterate_left k e

/-! ## The pseudo-instruction `powmod` (30_encoding.md R79) -/

/-- The engine record with the patterns of three integers stored as operands. -/
def loadOperands {w : Nat} (e : Engine w) (a x n : Int) : Engine w :=
  ((e.setOpa (pat w a)).setOpb (pat w x)).setOpn (pat w n)

/-- What an operand register keeps of an assembly line's value is the value's pattern. -/
theorem keepOperand_asmData (b : Build) (v : Int) :
    keepOperand b.width (asmData b v).toNat = pat b.width v := by
  unfold asmData
  split
  · rw [zext_toNat (width_le_bw b), keepOperand, BitVec.ofNat_toNat, BitVec.setWidth_eq]
  · next hv =>
    have hv : 0 ≤ v := by omega
    apply BitVec.eq_of_toNat_eq
    zify
    rw [keepOperand_toNat, BitVec.toNat_ofNat, Nat.mod_mod_of_dvd _ (Nat.pow_dvd_pow 2 (width_le_bw b)),
      pat_toNat_eq_emod]
    push_cast
    rw [Int.toNat_of_nonneg hv]

theorem decode_asm_powmod (b : Build) :
    ∃ high, decode (asmTxn b (.cmd opPowmod)) = .cmdPowmod high := by
  have hdata : (zext b.bw opPowmod).toNat = 1 := zext_toNat (bw_ge_four b) opPowmod
  exact ⟨_, decode_command_powmod (by rw [hdata])⟩

section AsmRuns
variable {s : State} {rest : List (Event s.build.bw)}

/-- A run whose first event is a transaction. -/
theorem run_host_succ {x : Txn s.build.bw} (he : s.events = .host x :: rest) (k : Nat) :
    Sys2Proof.core.run (k + 1) s = Sys2Proof.core.run k
      { s with engine := effect s.build (decode x) s.engine, events := rest,
               responses := answered s.build (decode x) s.engine s.responses } :=
  run_succ ((step_host he).trans (exec_eq _ _)) k

theorem run_engine_slots (k : Nat) (he : s.events = List.replicate k .engine ++ rest) :
    Sys2Proof.core.run k s = .next { s with engine := engineTurn^[k] s.engine, events := rest } := by
  induction k generalizing s with
  | zero => obtain rfl : s.events = rest := he; rfl
  | succ k ih =>
    exact (run_succ (step_engine he) k).trans
      (ih (s := { s with engine := engineTurn s.engine, events := List.replicate k .engine ++ rest }) rfl)

/-- The four transactions up to the command store the operands and present POWMOD to them. -/
theorem run_asmPowmodIssue {a x n : Int} (hidle : s.engine.phase = .idle)
    (he : s.events = asmEvents s.build (asmPowmodIssue a x n) ++ rest) :
    Sys2Proof.core.run 4 s =
      .next { s with engine := acceptPowmod s.build (loadOperands s.engine a x n), events := rest } := by
  obtain ⟨high, hcmd⟩ := decode_asm_powmod s.build
  have hloaded : ((s.engine.setOpa (keepOperand s.build.width (asmData s.build a).toNat)).setOpb
      (keepOperand s.build.width (asmData s.build x).toNat)).setOpn
      (keepOperand s.build.width (asmData s.build n).toNat) = loadOperands s.engine a x n := by
    simp only [keepOperand_asmData, loadOperands]
  have hidle' : (loadOperands s.engine a x n).phase = .idle := hidle
  rw [← effect_cmdPowmod_idle high hidle', ← hcmd, ← hloaded]
  rw [run_host_succ he, run_host_succ rfl, run_host_succ rfl, run_host_succ rfl, hcmd]
  rfl

/-- One poll of STATUS and the read of RESULT. -/
theorem run_asm_reads (he : s.events = asmEvents s.build (asmWait 1 ++ [.rd .result]) ++ rest) :
    Sys2Proof.core.run 2 s = .next { s with
      events := rest
      responses := readReg s.build s.engine 0x7 :: readReg s.build s.engine 0x2 :: s.responses } := by
  rw [run_host_succ he, run_host_succ rfl]
  rfl

end AsmRuns

theorem minv_nonpos (b : Build) : minv b ≤ 0 := by
  unfold minv
  split
  · exact neg_nonpos.2 (by positivity)
  · exact le_refl 0

/-- After FINISH without an error, STATUS reads DONE, and IRQ when enabled. -/
theorem readReg_status_finish {b : Build} {f : Engine b.width} (herr : f.err = false) (hcode : f.errcode = 0) :
    (readReg b f.finish 0x2).toNat = 2 + 8 * f.ie.toNat := by
  rw [readReg_status]
  simp [herr, hcode]

/-- Settles O45: the operands stored are the patterns of the three integers, so the run that the command starts
has their power as its value, and the two reads answer STATUS and RESULT after its FINISH. -/
theorem powmodPseudoInstruction : Obligations.PowmodPseudoInstruction := by
  unfold Obligations.PowmodPseudoInstruction
  intro s a x n rest hidle ha ha' hx hx' hn hn' hguard he
  have hmin := minv_nonpos s.build
  have hopa : val s.build.signed (loadOperands s.engine a x n).opa = a := val_pat ha ha'
  have hopb : val s.build.signed (loadOperands s.engine a x n).opb = x := val_pat (hmin.trans hx) hx'
  have hopn : val s.build.signed (loadOperands s.engine a x n).opn = n := val_pat (hmin.trans hn.le) hn'
  have hadmitted : operandsAdmitted s.build (loadOperands s.engine a x n) := by
    rw [operandsAdmitted, hopb, hopn]; exact ⟨hguard, hn, hx⟩
  obtain ⟨f, hend, hvalue, herr, hcode, hie⟩ := started_run_ends (k := bitlen x.toNat + 1) hadmitted
    (by rw [hopb]; exact Nat.lt_add_one _)
  rw [powModValue, hopa, hopb, hopn] at hvalue
  have hissue := run_asmPowmodIssue hidle he
  have hturns := (core_run_add Sys2Proof.core 4 (bitlen x.toNat + 1) hissue).trans (run_engine_slots _ rfl)
  have hreads := (core_run_add Sys2Proof.core _ 2 hturns).trans (run_asm_reads rfl)
  refine ⟨_, hreads, ?_⟩
  simp only [List.map_cons, hend]
  rw [readReg_result, readReg_status_finish herr hcode, finish_result, ← hvalue, Int.toNat_natCast, hie]
  rfl

end Sys2Proof.Machine
end

section
/-! The working registers of an idle engine cannot be observed (10_state.md R36, R38). -/

namespace Sys2Proof.Machine

/-! ## Engine records that the host cannot tell apart -/

/-- The engine record `e` with the working registers of `r`. -/
def withWorking {w : Nat} (e r : Engine w) : Engine w :=
  { e with wbase := r.wbase, wexp := r.wexp, wmod := r.wmod, wacc := r.wacc }

/-- The records agree, except that an idle engine may hold other working registers. -/
def alike {w : Nat} (e f : Engine w) : Prop := f = e ∨ (e.phase = .idle ∧ ∃ r, f = withWorking e r)

theorem alike_of_sameVisible {w : Nat} {e f : Engine w} (h : sameVisible e f) (hp : e.phase = .idle) :
    alike e f := by
  refine .inr ⟨hp, f, ?_⟩
  obtain ⟨⟨hopa, hopb, hopn, hie⟩, ⟨hdone, herr, hcode⟩, hphase, hresult⟩ := h
  rw [withWorking, hopa, hopb, hopn, hie, hdone, herr, hcode, hphase, hresult]

theorem statusWord_of_alike {w : Nat} {e f : Engine w} (h : alike e f) :
    irq f = irq e ∧ statusWord f = statusWord e := by
  obtain rfl | ⟨_, r, rfl⟩ := h <;> exact ⟨rfl, rfl⟩

theorem alike_engineTurn {w : Nat} {e f : Engine w} (h : alike e f) : alike (engineTurn e) (engineTurn f) := by
  obtain rfl | ⟨hp, r, rfl⟩ := h
  · exact .inl rfl
  · rw [engineTurn_idle hp, engineTurn_idle (e := withWorking e r) hp]
    exact .inr ⟨hp, r, rfl⟩

section Alike
variable {b : Build} {e f : Engine b.width}

/-- An accepted POWMOD reads no working register: a refusal leaves them, and a start writes all four. -/
theorem alike_acceptPowmod (hp : e.phase = .idle) (r : Engine b.width) :
    alike (acceptPowmod b e) (acceptPowmod b (withWorking e r)) := by
  rcases acceptPowmod_cases b e with ⟨hguard, h⟩ | ⟨hn, h⟩ | ⟨hguard, hn, hx, h⟩ | ⟨ha, h⟩ <;> rw [h]
  · rw [acceptPowmod_overflow (e := withWorking e r) hguard]; exact .inr ⟨hp, r, rfl⟩
  · rw [acceptPowmod_modulus (e := withWorking e r) hn]; exact .inr ⟨hp, r, rfl⟩
  · rw [acceptPowmod_exponent (e := withWorking e r) hguard hn hx]; exact .inr ⟨hp, r, rfl⟩
  · rw [acceptPowmod_starts (e := withWorking e r) ha]; exact .inl rfl

theorem alike_effect (i : Instr) (h : alike e f) : alike (effect b i e) (effect b i f) := by
  obtain rfl | ⟨hp, r, rfl⟩ := h
  · exact .inl rfl
  · cases i with
    | cmdPowmod high =>
      rw [effect_cmdPowmod_idle high hp, effect_cmdPowmod_idle (e := withWorking e r) high hp]
      exact alike_acceptPowmod hp r
    | cmdClear high =>
      rw [effect_cmdClear_idle high hp, effect_cmdClear_idle (e := withWorking e r) high hp]
      exact .inr ⟨hp, r, rfl⟩
    | _ => exact .inr ⟨hp, r, rfl⟩

/-- No read answers from a working register (R36). -/
theorem answered_of_alike (i : Instr) (h : alike e f) (rs : List (BitVec b.bw)) :
    answered b i f rs = answered b i e rs := by
  obtain rfl | ⟨_, r, rfl⟩ := h
  · rfl
  · cases i <;> rfl

end Alike

/-! ## Machines that the host cannot tell apart -/

/-- A step from a machine with an alike engine does the same, and leaves an alike engine. -/
theorem step_alike {s t : State} {f : Engine s.build.width} (h : step s = .next t) (hf : alike s.engine f) :
    ∃ g, step (s.withEngine f) = .next (t.withEngine g) ∧ alike t.engine g := by
  rcases step_cases h with ⟨he, rfl⟩ | ⟨rest, he, rfl⟩ | ⟨x, rest, he, hx⟩ | ⟨p, rest, he, rfl⟩
  · exact ⟨engineTurn f, step_silent he, alike_engineTurn hf⟩
  · exact ⟨engineTurn f, step_engine he, alike_engineTurn hf⟩
  · obtain rfl := step_host_eq hx
    refine ⟨effect s.build (decode x) f, ?_, alike_effect _ hf⟩
    rw [step_host (s := s.withEngine f) he, exec_eq]
    simp only [State.withEngine, State.withEvents, answered_of_alike _ hf]
  · exact ⟨freshlyReset s.build.width s.fresh, step_reset he, .inl rfl⟩

/-- A run of `k + 1` steps that answers a next state took a step. -/
theorem step_of_core_run_succ (M : Host.Core) {k : Nat} {s t : M.State} (h : M.run (k + 1) s = .next t) :
    ∃ s', M.step s = .next s' ∧ M.run k s' = .next t := by
  cases hs : M.step s with
  | next s' => exact ⟨s', rfl, by rwa [core_run_succ M hs] at h⟩
  | fault r => simp only [Host.Core.run, hs] at h; cases h
  | refused r => simp only [Host.Core.run, hs] at h; cases h

theorem run_alike (k : Nat) {s t : State} {f : Engine s.build.width} (h : Sys2Proof.core.run k s = .next t)
    (hf : alike s.engine f) :
    ∃ g, Sys2Proof.core.run k (s.withEngine f) = .next (t.withEngine g) ∧ alike t.engine g := by
  induction k generalizing s with
  | zero => injection h with h; subst h; exact ⟨f, rfl, hf⟩
  | succ k ih =>
    obtain ⟨s', hstep, hrest⟩ := step_of_core_run_succ Sys2Proof.core h
    obtain ⟨f', hstep', hf'⟩ := step_alike hstep hf
    obtain ⟨g, hrun, hg⟩ := ih hrest hf'
    exact ⟨g, (run_succ hstep' k).trans hrun, hg⟩

/-- Settles O59: the two machines stay alike in every step, and alike machines answer and interrupt alike. -/
theorem workingRegistersAreUnobservable : Obligations.WorkingRegistersAreUnobservable := by
  unfold Obligations.WorkingRegistersAreUnobservable
  intro b e f evs rs n k t hvisible hp h
  obtain ⟨g, hrun, hg⟩ := run_alike k h (alike_of_sameVisible hvisible hp)
  obtain ⟨hirq, hstatus⟩ := statusWord_of_alike hg
  exact ⟨_, hrun, rfl, hirq, hstatus⟩

end Sys2Proof.Machine
end
